-- ==== Sys2Proof/Word.lean ====
section
/-! DEFINITION. The word types of the model (00_scope.md R6, R8): plain bit strings, bit 0 the least significant. -/

namespace Sys2Proof

/-- One byte of memory or of an instruction. -/
abbrev Byte := BitVec 8

/-- A general register, the instruction pointer or a linear address (R13, R14, R17). -/
abbrev Word64 := BitVec 64

/-- A whole vector register, `MAXVL = 512` bits (R6, R10). -/
abbrev ZmmWord := BitVec 512

/-- A 128-bit lane, the unit the shuffle moves (R8). -/
abbrev Lane := BitVec 128

end Sys2Proof
end

