-- ==== Sys2Proof/Config.lean ====
section
/-! DEFINITION. What is fixed for the machine (00_scope.md R6, R7) and the one free value of the model. The parameters the
spec leaves OPEN per run (MODE64, the feature flags, STATE_ENABLED, TS, MemFault) are fields of State. -/

namespace Sys2Proof.Config

/-- `MAXVL`, bits in a vector register (R6, D2). -/
abbrev maxVL : Nat := 512

/-- `KW`, bits in an opmask register. The spec leaves it OPEN, `KW >= 16` (R7, D4). DESIGN CHOICE 64, safe: log 5. -/
abbrev kw : Nat := 64

/-- `NK`, the number of opmask registers (R7, R12). -/
abbrev nk : Nat := 8

/-- `NVEC`, the number of vector registers an instruction can name (R7, R10, D3). -/
def nvec (mode64 : Bool) : Nat := if mode64 then 32 else 8

/-- `AW`, the bits in a linear address (R7, D8). -/
def aw (mode64 : Bool) : Nat := if mode64 then 64 else 32

/-- `READ_GRANULE` in bytes (R7, R26, D12). One core that runs alone cannot tell one granule from another: log 13. -/
abbrev readGranule : Nat := 1

/-- The longest instruction, in bytes (R44: a memory form is 7 to 12 bytes). -/
abbrev maxILen : Nat := 12

/-- A FREE VALUE: what the byte of an operand numbered `addr >= 2^AW`, beyond the top of the address space, reads as when
memory holds `mem`. The spec states no byte there. No body: nothing can be proved of it. DESIGN CHOICE, safe: log 8. -/
opaque freeByte (mem : List (Nat × Byte)) (addr : Nat) : Byte

end Sys2Proof.Config
end

