-- ==== Sys2Proof/Syntax.lean ====
section
/-! DEFINITION. The eight instructions as data (00_scope.md R1), one constructor per row of spec/opcode_table.json, with the
operands of 30_encoding.md R37 to R43. -/

namespace Sys2Proof

/-- The displacement bytes of a memory operand (R43): none, `disp8` (scaled by the operand size) or `disp32`. -/
inductive Disp where
  | none
  | disp8 (d : BitVec 8)
  | disp32 (d : BitVec 32)
  deriving DecidableEq, Repr

/-- The address forms of a memory operand (R43). General register numbers have 4 bits: `B ++ rm`, `B ++ SIB.base`,
`X ++ SIB.index`. -/
inductive MemOperand where
  /-- No SIB byte: a base register and a displacement. -/
  | base (base : BitVec 4) (disp : Disp)
  /-- `mod = 00b, rm = 101b`: relative to the next instruction in 64-bit mode, no base in 32-bit modes (R43, R46). -/
  | disp32 (d : BitVec 32)
  /-- SIB byte with a base register; the index number `0100b` means no index register. -/
  | sib (scale : BitVec 2) (index base : BitVec 4) (disp : Disp)
  /-- SIB byte with `mod = 00b, SIB.base = 101b`: no base register, a `disp32`. -/
  | sibNoBase (scale : BitVec 2) (index : BitVec 4) (d : BitVec 32)
  deriving DecidableEq, Repr

/-- Operand 3, the second source (R39, R41): a vector register, or memory with or without broadcast. A register with
`b = 1` is no operand (R45). -/
inductive Src2 where
  | reg (r : BitVec 5)
  | mem (m : MemOperand) (bcast : Bool)
  deriving DecidableEq, Repr

/-- The writemask selector and masking mode (R40). `aaa = 000b` with `z = 1` is no operand (R45). -/
inductive Writemask where
  | none
  | merging (k : BitVec 3)
  | zeroing (k : BitVec 3)
  deriving DecidableEq, Repr

/-- The operands of every form, destination first (R37 to R42, R47). -/
structure ShufOperands where
  d    : BitVec 5
  s1   : BitVec 5
  src2 : Src2
  mask : Writemask
  imm8 : BitVec 8
  deriving DecidableEq, Repr

/-- One constructor per row of the opcode table: `y` is the 256-bit (`ymm`) form, `z` the 512-bit (`zmm`) form (R1). -/
inductive Instr where
  | vshuff32x4y (o : ShufOperands)
  | vshuff32x4z (o : ShufOperands)
  | vshuff64x2y (o : ShufOperands)
  | vshuff64x2z (o : ShufOperands)
  | vshufi32x4y (o : ShufOperands)
  | vshufi32x4z (o : ShufOperands)
  | vshufi64x2y (o : ShufOperands)
  | vshufi64x2z (o : ShufOperands)
  deriving DecidableEq, Repr

/-- The operands of an instruction, whichever form it is. -/
def Instr.operands : Instr → ShufOperands
  | .vshuff32x4y o => o
  | .vshuff32x4z o => o
  | .vshuff64x2y o => o
  | .vshuff64x2z o => o
  | .vshufi32x4y o => o
  | .vshufi32x4z o => o
  | .vshufi64x2y o => o
  | .vshufi64x2z o => o

/-- `VL`, the vector length of a form in bits (R5). -/
def Instr.vl : Instr → Nat
  | .vshuff32x4y _ => 256
  | .vshuff32x4z _ => 512
  | .vshuff64x2y _ => 256
  | .vshuff64x2z _ => 512
  | .vshufi32x4y _ => 256
  | .vshufi32x4z _ => 512
  | .vshufi64x2y _ => 256
  | .vshufi64x2z _ => 512

/-- `ESZ`, the element size of a form in bits (R5). -/
def Instr.esz : Instr → Nat
  | .vshuff32x4y _ => 32
  | .vshuff32x4z _ => 32
  | .vshuff64x2y _ => 64
  | .vshuff64x2z _ => 64
  | .vshufi32x4y _ => 32
  | .vshufi32x4z _ => 32
  | .vshufi64x2y _ => 64
  | .vshufi64x2z _ => 64

end Sys2Proof
end

