-- ==== Sys2Proof/WellFormed.lean ====
section
/-! DEFINITION. Which terms of Instr an encoding exists for, per operating mode (30_encoding.md R40, R43, R45, R46). -/

namespace Sys2Proof

/-- The low three bits of a general register number, as `ModRM.rm` or `SIB.base` holds them (R43). -/
def regLow (r : BitVec 4) : BitVec 3 := r.extractLsb' 0 3

/-- In 32-bit modes a vector register number is below `NVEC = 8` (R45, R46). -/
def vregOk (mode64 : Bool) (r : BitVec 5) : Bool := mode64 || decide (r.toNat < 8)

/-- In 32-bit modes a general register number is below 8 (R46: `X`, `B` contribute 0). -/
def gprOk (mode64 : Bool) (r : BitVec 4) : Bool := mode64 || decide (r.toNat < 8)

/-- The address form is one that R43 writes: `rm = 100b` announces a SIB byte, and without a displacement the base
bits `101b` mean another form. -/
def MemOperand.wellFormed (mode64 : Bool) : MemOperand → Bool
  | .base b disp => gprOk mode64 b && regLow b != 4 && !(disp == .none && regLow b == 5)
  | .disp32 _ => true
  | .sib _ index b disp => gprOk mode64 b && gprOk mode64 index && !(disp == .none && regLow b == 5)
  | .sibNoBase _ index _ => gprOk mode64 index

def Src2.wellFormed (mode64 : Bool) : Src2 → Bool
  | .reg r => vregOk mode64 r
  | .mem m _ => m.wellFormed mode64

/-- `k[0]` cannot be named as a writemask (R12, R40). -/
def Writemask.wellFormed : Writemask → Bool
  | .none => true
  | .merging k => k != 0
  | .zeroing k => k != 0

def ShufOperands.wellFormed (mode64 : Bool) (o : ShufOperands) : Bool :=
  vregOk mode64 o.d && vregOk mode64 o.s1 && o.src2.wellFormed mode64 && o.mask.wellFormed

/-- An instruction that some byte string encodes in the given mode. -/
def Instr.wellFormed (mode64 : Bool) (i : Instr) : Bool := i.operands.wellFormed mode64

end Sys2Proof
end

