-- ==== Sys2Proof/Decode.lean ====
section
/-! DEFINITION. From bytes to instructions and back (30_encoding.md R31 to R46). Decoding is total: an instruction with the
bytes after it, an encoding that raises `#UD`, or a refusal by name. The encoder is written from the same tables. -/

namespace Sys2Proof

/-- Why a byte string has no meaning in the model (R45, R46). All are safe: the model stops where hardware may go on. -/
inductive DecodeRefusal where
  /-- The first byte is not `62H` (R45, R46; prefix bytes before `62H` among them). -/
  | notEvex
  /-- `pp`, `mm` or the opcode byte is another instruction's (R45). -/
  | otherInstruction
  /-- 32-bit modes: outside the subset R46 admits. -/
  | outsideMode32Subset
  /-- The bytes end before the instruction does. -/
  | truncated
  /-- `mod = 11b` and `b = 1` (R45, D10). -/
  | registerBroadcast
  /-- `aaa = 000b` and `z = 1` (R45, D10). -/
  | zeroingWithoutMask
  deriving DecidableEq, Repr

/-- What a byte string decodes to (R58 steps 1 and 2a). -/
inductive DecodeResult where
  | instr (i : Instr) (rest : List Byte)
  /-- An encoding that raises `#UD` (R68, R70 a to c). -/
  | invalidOpcode
  | refused (r : DecodeRefusal)
  deriving DecidableEq, Repr

/-! ## Displacements and the ModRM/SIB operand -/

/-- A little-endian 32-bit field (R22, R32). -/
def le32 (b0 b1 b2 b3 : Byte) : BitVec 32 := b3 ++ b2 ++ b1 ++ b0

def takeDisp32 : List Byte → Option (BitVec 32 × List Byte)
  | b0 :: b1 :: b2 :: b3 :: rest => some (le32 b0 b1 b2 b3, rest)
  | _ => none

/-- The displacement `mod` announces (R43): none for `00b`, `disp8` for `01b`, `disp32` for `10b`. -/
def takeDisp (mod : BitVec 2) (bytes : List Byte) : Option (Disp × List Byte) :=
  if mod = 0 then some (.none, bytes)
  else if mod = 1 then
    match bytes with
    | d :: rest => some (.disp8 d, rest)
    | [] => none
  else
    match takeDisp32 bytes with
    | some (d, rest) => some (.disp32 d, rest)
    | none => none

/-- The memory operand after ModRM (R43); `x`, `b` are the values `X`, `B` contribute. -/
def takeMem (x b : BitVec 1) (mod : BitVec 2) (rm : BitVec 3) (bytes : List Byte) :
    Option (MemOperand × List Byte) :=
  if rm = 4 then
    match bytes with
    | [] => none
    | sib :: rest =>
      let scale := sib.extractLsb' 6 2
      let index : BitVec 4 := x ++ sib.extractLsb' 3 3
      let base := sib.extractLsb' 0 3
      if mod = 0 ∧ base = 5 then
        match takeDisp32 rest with
        | some (d, rest) => some (.sibNoBase scale index d, rest)
        | none => none
      else
        match takeDisp mod rest with
        | some (disp, rest) => some (.sib scale index (b ++ base) disp, rest)
        | none => none
  else if mod = 0 ∧ rm = 5 then
    match takeDisp32 bytes with
    | some (d, rest) => some (.disp32 d, rest)
    | none => none
  else
    match takeDisp mod bytes with
    | some (disp, rest) => some (.base (b ++ rm) disp, rest)
    | none => none

/-- Operand 3 from ModRM on (R39), with the bytes after it. -/
def takeSrc2 (x b : BitVec 1) (bcast : Bool) (modrm : Byte) (bytes : List Byte) :
    Option (Src2 × List Byte) :=
  let mod := modrm.extractLsb' 6 2
  let rm := modrm.extractLsb' 0 3
  if mod = 3 then some (.reg (x ++ b ++ rm), bytes)
  else
    match takeMem x b mod rm bytes with
    | some (m, rest) => some (.mem m bcast, rest)
    | none => none

/-! ## Fixed fields -/

/-- The refusals that the first five bytes decide (R45 row 7, R46; log 16). -/
def headerRefusal (mode64 : Bool) (e p0 p1 p2 op : Byte) : Option DecodeRefusal :=
  if e ≠ 0x62 then some .notEvex
  else if !mode64 && !(p0.extractLsb' 4 4 == 15 && p1.extractLsb' 6 1 == 1 && p2.extractLsb' 3 1 == 1) then
    some .outsideMode32Subset
  else if p0.extractLsb' 0 2 ≠ 3 ∨ p1.extractLsb' 0 2 ≠ 1 ∨ (op ≠ 0x23 ∧ op ≠ 0x43) then some .otherInstruction
  else none

/-- The encodings of the group that raise `#UD`: reserved prefix bits (R70 c), `L'L = 00b` (R68, R70 a) and
`L'L = 11b` (R70 b). -/
def headerInvalid (p0 p1 p2 : Byte) : Bool :=
  p0.extractLsb' 2 2 != 0 || p1.extractLsb' 2 1 != 1 || p2.extractLsb' 5 2 == 0 || p2.extractLsb' 5 2 == 3

/-- The writemask from `z` and `aaa` (R40); `none` for the reserved `aaa = 000b, z = 1` (R45). -/
def maskOf (z : BitVec 1) (aaa : BitVec 3) : Option Writemask :=
  if aaa = 0 then if z = 0 then some .none else none
  else if z = 0 then some (.merging aaa) else some (.zeroing aaa)

/-- The form that opcode byte, `W` and `L'L` select (R35, R36). -/
def formOf (op : Byte) (w : BitVec 1) (ll : BitVec 2) (o : ShufOperands) : Instr :=
  if op = 0x23 then
    if w = 0 then if ll = 1 then .vshuff32x4y o else .vshuff32x4z o
    else if ll = 1 then .vshuff64x2y o else .vshuff64x2z o
  else
    if w = 0 then if ll = 1 then .vshufi32x4y o else .vshufi32x4z o
    else if ll = 1 then .vshufi64x2y o else .vshufi64x2z o

/-- Decode the bytes at `rip` (R32 to R46). A refusal goes before `#UD` (R58 steps 1 and 2; DEDUCED, safe: log 10). -/
def decode (mode64 : Bool) : List Byte → DecodeResult
  | e :: p0 :: p1 :: p2 :: op :: modrm :: tail =>
    match headerRefusal mode64 e p0 p1 p2 op with
    | some r => .refused r
    | none =>
      let x := ~~~ p0.extractLsb' 6 1
      let b := ~~~ p0.extractLsb' 5 1
      let bcast := p2.extractLsb' 4 1 == 1
      match takeSrc2 x b bcast modrm tail with
      | some (src2, imm8 :: rest) =>
        if modrm.extractLsb' 6 2 = 3 ∧ bcast = true then .refused .registerBroadcast
        else
          match maskOf (p2.extractLsb' 7 1) (p2.extractLsb' 0 3) with
          | none => .refused .zeroingWithoutMask
          | some mask =>
            if headerInvalid p0 p1 p2 then .invalidOpcode
            else
              let d : BitVec 5 := (~~~ p0.extractLsb' 4 1) ++ (~~~ p0.extractLsb' 7 1) ++ modrm.extractLsb' 3 3
              let s1 : BitVec 5 := (~~~ p2.extractLsb' 3 1) ++ (~~~ p1.extractLsb' 3 4)
              .instr (formOf op (p1.extractLsb' 7 1) (p2.extractLsb' 5 2) ⟨d, s1, src2, mask, imm8⟩) rest
      | _ => .refused .truncated
  | _ => .refused .truncated

/-! ## Length and encoder -/

/-- The number of displacement bytes (R43). -/
def Disp.length : Disp → Nat
  | .none => 0
  | .disp8 _ => 1
  | .disp32 _ => 4

/-- `sib + dispbytes` of R44. -/
def Src2.tailLength : Src2 → Nat
  | .reg _ => 0
  | .mem (.base _ disp) _ => disp.length
  | .mem (.disp32 _) _ => 4
  | .mem (.sib _ _ _ disp) _ => 1 + disp.length
  | .mem (.sibNoBase _ _ _) _ => 1 + 4

/-- `ilen = 6 + sib + dispbytes + 1` (R44). -/
def ShufOperands.ilen (o : ShufOperands) : Nat := 6 + o.src2.tailLength + 1

/-- The length of an instruction in bytes (R44). -/
def Instr.ilen (i : Instr) : Nat := i.operands.ilen

def le32Bytes (d : BitVec 32) : List Byte :=
  [d.extractLsb' 0 8, d.extractLsb' 8 8, d.extractLsb' 16 8, d.extractLsb' 24 8]

/-- The `mod` field and the bytes of a displacement (R43). -/
def Disp.mod : Disp → BitVec 2
  | .none => 0
  | .disp8 _ => 1
  | .disp32 _ => 2

def Disp.bytes : Disp → List Byte
  | .none => []
  | .disp8 d => [d]
  | .disp32 d => le32Bytes d

/-- What operand 3 puts into the encoding: the values of `X`, `B`, `mod`, `rm` and the bytes after ModRM. -/
structure RmFields where
  x    : BitVec 1
  b    : BitVec 1
  mod  : BitVec 2
  rm   : BitVec 3
  tail : List Byte
  deriving DecidableEq, Repr

/-- The SIB byte (R33). -/
def sibByte (scale : BitVec 2) (index base : BitVec 3) : Byte := scale ++ index ++ base

/-- The fields of operand 3 (R39, R43). A bit the decoder ignores is written as contributing 0 (log 11). -/
def Src2.fields : Src2 → RmFields
  | .reg r => ⟨r.extractLsb' 4 1, r.extractLsb' 3 1, 3, r.extractLsb' 0 3, []⟩
  | .mem (.base b disp) _ => ⟨0, b.extractLsb' 3 1, disp.mod, regLow b, disp.bytes⟩
  | .mem (.disp32 d) _ => ⟨0, 0, 0, 5, le32Bytes d⟩
  | .mem (.sib scale index b disp) _ =>
    ⟨index.extractLsb' 3 1, b.extractLsb' 3 1, disp.mod, 4, sibByte scale (regLow index) (regLow b) :: disp.bytes⟩
  | .mem (.sibNoBase scale index d) _ =>
    ⟨index.extractLsb' 3 1, 0, 0, 4, sibByte scale (regLow index) 5 :: le32Bytes d⟩

/-- The broadcast bit `b` (R41). -/
def Src2.bcastBit : Src2 → BitVec 1
  | .reg _ => 0
  | .mem _ false => 0
  | .mem _ true => 1

/-- The bits `z` and `aaa` of a writemask (R40). -/
def Writemask.zBit : Writemask → BitVec 1
  | .none => 0
  | .merging _ => 0
  | .zeroing _ => 1

def Writemask.aaa : Writemask → BitVec 3
  | .none => 0
  | .merging k => k
  | .zeroing k => k

/-- The opcode byte of a form (R36). -/
def Instr.opcode : Instr → Byte
  | .vshuff32x4y _ => 0x23
  | .vshuff32x4z _ => 0x23
  | .vshuff64x2y _ => 0x23
  | .vshuff64x2z _ => 0x23
  | .vshufi32x4y _ => 0x43
  | .vshufi32x4z _ => 0x43
  | .vshufi64x2y _ => 0x43
  | .vshufi64x2z _ => 0x43

/-- The bit `W` of a form (R36): 0 for the `32x4` mnemonics, 1 for the `64x2` mnemonics. -/
def Instr.wBit : Instr → BitVec 1
  | .vshuff32x4y _ => 0
  | .vshuff32x4z _ => 0
  | .vshuff64x2y _ => 1
  | .vshuff64x2z _ => 1
  | .vshufi32x4y _ => 0
  | .vshufi32x4z _ => 0
  | .vshufi64x2y _ => 1
  | .vshufi64x2z _ => 1

/-- The field `L'L` of a form (R35): `01b` for 256 bits, `10b` for 512 bits. -/
def Instr.llBits : Instr → BitVec 2
  | .vshuff32x4y _ => 1
  | .vshuff32x4z _ => 2
  | .vshuff64x2y _ => 1
  | .vshuff64x2z _ => 2
  | .vshufi32x4y _ => 1
  | .vshufi32x4z _ => 2
  | .vshufi64x2y _ => 1
  | .vshufi64x2z _ => 2

/-- `P0 = R̄ X̄ B̄ R̄' 0 0 m m` (R33). -/
def p0Byte (o : ShufOperands) : Byte :=
  (~~~ o.d.extractLsb' 3 1) ++ (~~~ o.src2.fields.x) ++ (~~~ o.src2.fields.b) ++ (~~~ o.d.extractLsb' 4 1) ++
    (0 : BitVec 2) ++ (3 : BitVec 2)

/-- `P1 = W v̄v̄v̄v̄ 1 p p` (R33). -/
def p1Byte (w : BitVec 1) (o : ShufOperands) : Byte :=
  w ++ (~~~ o.s1.extractLsb' 0 4) ++ (1 : BitVec 1) ++ (1 : BitVec 2)

/-- `P2 = z L' L b V̄' a a a` (R33). -/
def p2Byte (ll : BitVec 2) (o : ShufOperands) : Byte :=
  o.mask.zBit ++ ll ++ o.src2.bcastBit ++ (~~~ o.s1.extractLsb' 4 1) ++ o.mask.aaa

/-- `ModRM = mod reg rm` (R33). -/
def modrmByte (o : ShufOperands) : Byte := o.src2.fields.mod ++ o.d.extractLsb' 0 3 ++ o.src2.fields.rm

/-- The bytes of an instruction in increasing address order (R32). -/
def encode (i : Instr) : List Byte :=
  0x62 :: p0Byte i.operands :: p1Byte i.wBit i.operands :: p2Byte i.llBits i.operands :: i.opcode ::
    modrmByte i.operands :: (i.operands.src2.fields.tail ++ [i.operands.imm8])

/-! ## Words numbered as the opcode table numbers them -/

/-- The bytes of a word of `nbits` bits, the first byte its least significant, padded with zero bytes to the longest
instruction. -/
def wordBytes (nbits w : Nat) : List Byte :=
  (List.range Config.maxILen).map fun m => BitVec.ofNat 8 ((w % 2 ^ nbits) >>> (8 * m))

/-- The instruction the decoder reads, in 64-bit mode, from a word numbered with bit 0 the least significant bit of the
first byte; `none` where it refuses or the encoding raises `#UD`. -/
def decodeTableWord (nbits w : Nat) : Option Instr :=
  match decode true (wordBytes nbits w) with
  | .instr i _ => some i
  | .invalidOpcode => none
  | .refused _ => none

end Sys2Proof
end

