-- ==== Sys2Proof/Machine/State.lean ====
section
/-! DEFINITION. The state of the machine (10_state.md R10 to R17, R89), the reasons a step can stop (60_exceptions.md R68 to
R77) and the state after reset. Plain data throughout. -/

namespace Sys2Proof.Machine

/-- The exceptions the `MemFault` oracle may name, with what each records (R72). -/
inductive MemException where
  /-- `#SS(0)`, stack fault. -/
  | stackFault
  /-- `#GP(0)`, general protection. -/
  | generalProtection
  /-- `#PF(code)`, page fault: the fault code and the faulting linear address. The spec gives the code no width. PRESUMED
  32 bits, safe: log 17. -/
  | pageFault (code : BitVec 32) (addr : Word64)
  /-- `#AC(0)`, alignment check. -/
  | alignmentCheck
  deriving DecidableEq, Repr

/-- The exceptions of the instructions, each a terminal outcome (R77). All are the spec's own, so a stop here is safe. -/
inductive Fault where
  /-- `#UD`: raised by step for an invalid encoding (R68, R70 a to c), by every form for its admission (R70 d to f). -/
  | invalidOpcode
  /-- `#NM`: raised by every form when `TS` is true (R71). -/
  | deviceNotAvailable
  /-- Raised by every form with a memory second source when the oracle names it (R72). -/
  | memory (e : MemException)
  deriving DecidableEq, Repr

/-- The byte strings and states the model gives no step. All are safe: the model stops where hardware may go on. -/
inductive Refusal where
  /-- Raised by exec for an instruction without a meaning; no arm of exec uses it. -/
  | notModelled (mnemonic : String)
  /-- Raised by step: the bytes at `rip` have no meaning (R45, R46), or they end at the top of the address space (R14). -/
  | encoding (r : DecodeRefusal)
  /-- Raised by every form: `rip + ilen` does not fit in `AW` bits (R14, D21). -/
  | ripWraps
  deriving DecidableEq, Repr

/-- Which accesses an entry of the oracle is about. -/
inductive FaultScope where
  /-- Every access that touches one of the bytes `base .. base+size-1`. -/
  | bytes (base size : Nat)
  /-- The access of `size` bytes at `addr`, and no other. -/
  | access (addr size : Nat)
  deriving DecidableEq, Repr

/-- One entry of the `MemFault` oracle (R7, R72): log 7. -/
structure MemFaultEntry where
  scope : FaultScope
  exc   : MemException
  deriving DecidableEq, Repr

/-- Memory: the listed bytes, addresses strictly rising, no entry equal to what an unlisted address reads as. -/
abbrev Memory := List Host.Cell

/-- What an unlisted address reads as. The spec gives no launch contents (R19). DESIGN CHOICE 0, unsafe: log 4. -/
def Memory.unlisted : Byte := 0

/-- The canonical form from address `lo` on. -/
def Memory.wfFrom : Nat → Memory → Bool
  | _, [] => true
  | lo, (a, v) :: m => decide (lo ≤ a) && decide (a < 2 ^ 64) && v != Memory.unlisted && Memory.wfFrom (a + 1) m

/-- The canonical form of memory. -/
def Memory.wf (m : Memory) : Bool := Memory.wfFrom 0 m

/-- The state of the one agent: the items of R10 to R17 and no hidden state (R89; log 14). From `mode64` on the fields are the
parameters of the run (R7, R16, R19), which no step changes. -/
structure State where
  /-- Vector registers; `ymm[i]` is the low 256 bits (R10, R11). -/
  zmm : Vector ZmmWord 32
  /-- Opmask registers (R12). -/
  k : Vector (BitVec Config.kw) 8
  /-- General registers, rax to r15 in number order (R13). -/
  gpr : Vector Word64 16
  /-- The address of the instruction being executed (R14). -/
  rip : Word64
  /-- Status flags (R15). -/
  rflags : BitVec 64
  /-- Floating-point control and status (R15). -/
  mxcsr : BitVec 32
  /-- The one address space (R17). -/
  mem : Memory
  /-- `MODE64` (R7, R46). -/
  mode64 : Bool
  /-- `HAS_AVX512F` (R16). -/
  hasAVX512F : Bool
  /-- `HAS_AVX512VL` (R16). -/
  hasAVX512VL : Bool
  /-- `STATE_ENABLED` (R16). -/
  stateEnabled : Bool
  /-- `TS` (R71). -/
  ts : Bool
  /-- The `MemFault` oracle; the first entry that concerns an access answers (R72). -/
  memFault : List MemFaultEntry
  deriving DecidableEq, Repr

/-- The state after reset. The spec states no reset value (R19, R83). Registers: PRESUMED, the family's (log 2);
parameters: the values of R7 (log 3); memory: nothing listed (log 4). -/
def State.reset : State where
  zmm := Vector.replicate 32 0
  k := Vector.replicate 8 0
  gpr := (Vector.replicate 16 0).set 2 0x600
  rip := 0xFFFFFFF0
  rflags := 2
  mxcsr := 0x1F80
  mem := []
  mode64 := true
  hasAVX512F := true
  hasAVX512VL := true
  stateEnabled := true
  ts := false
  memFault := []

end Sys2Proof.Machine
end

