-- ==== Sys2Proof/Machine/Flags.lean ====
section
/-! DEFINITION. Status flags and floating-point status after a form (10_state.md R15; 60_exceptions.md R67): no form computes
a flag, so each keeps its value. -/

namespace Sys2Proof.Machine

/-- The status flags after a form: unchanged (R15). -/
def rflagsAfter (rflags : BitVec 64) : BitVec 64 := rflags

/-- The floating-point status after a form: unchanged, whatever bit patterns are moved (R15, R57, R67). -/
def mxcsrAfter (mxcsr : BitVec 32) : BitVec 32 := mxcsr

end Sys2Proof.Machine
end

