-- ==== Sys2Proof/Machine/Ops.lean ====
section
/-! DEFINITION. The named operations over elements, memory, registers, exceptions and the instruction pointer. -/

namespace Sys2Proof.Machine

/-! ## Elements of a value (R8) -/

/-- `elem_j(v)` for elements of `w` bits (R8). -/
def elemAt {n : Nat} (w : Nat) (v : BitVec n) (j : Nat) : BitVec w := v.extractLsb' (w * j) w

/-- The `n`-bit value whose elements of `w` bits below `count` are `f 0, f 1, ...`, the rest zero: the FOR loops of R51 and
R54 and the byte assembly of R22. -/
def ofElems (n w : Nat) (f : Nat → BitVec w) : Nat → BitVec n
  | 0 => 0
  | count + 1 => ofElems n w f count ||| ((f count).setWidth n <<< (w * count))

/-! ## Memory (R17, R22) -/

/-- The byte at an address. -/
def Memory.read : Memory → Nat → Byte
  | [], _ => Memory.unlisted
  | (b, v) :: m, a => if a = b then v else Memory.read m a

/-- Write one byte, keeping the canonical form. -/
def Memory.write (a : Nat) (v : Byte) : Memory → Memory
  | [] => if v = Memory.unlisted then [] else [(a, v)]
  | (b, u) :: m =>
    if a < b then if v = Memory.unlisted then (b, u) :: m else (a, v) :: (b, u) :: m
    else if a = b then if v = Memory.unlisted then m else (a, v) :: m
    else (b, u) :: Memory.write a v m

/-- Write bytes at rising addresses: the bytes of `MemWrite` (R9). No instruction uses it (R21). -/
def Memory.writeBytes (m : Memory) (a : Nat) : List Byte → Memory
  | [] => m
  | v :: vs => Memory.writeBytes (Memory.write a v m) (a + 1) vs

/-- The byte an operand read gets at `a`: memory below `2^AW`, a free byte from there on (log 8). -/
def memByte (s : State) (a : Nat) : Byte :=
  if a < 2 ^ Config.aw s.mode64 then s.mem.read a else Config.freeByte s.mem a

/-- `MemRead(addr, w/8)`, little-endian: the byte at `addr + m` supplies bits `8m+7:8m` (R9, R22). -/
def memRead (w : Nat) (addr : Word64) (s : State) : BitVec w :=
  ofElems w 8 (fun m => memByte s (addr.toNat + m)) (w / 8)

/-- Whether an entry of the oracle concerns the access of `n` bytes at `addr` (R24, R72). -/
def FaultScope.concerns (scope : FaultScope) (addr n : Nat) : Bool :=
  match scope with
  | .bytes base size => decide (max base addr < min (base + size) (addr + n))
  | .access a m => a == addr && m == n

/-- `MemFault(addr, n)`: the exception the oracle names for an access, if any (R72). -/
def memFaultFor (oracle : List MemFaultEntry) (addr n : Nat) : Option MemException :=
  (oracle.find? fun e => e.scope.concerns addr n).map (·.exc)

/-! ## Registers (R9 to R14) -/

/-- `zmm[i]`. -/
def readZmm (s : State) (i : BitVec 5) : ZmmWord := s.zmm[i.toNat]'i.isLt

/-- `zmm[i] <- v`, all bits. -/
def writeZmm (i : BitVec 5) (v : ZmmWord) (s : State) : State := { s with zmm := s.zmm.set i.toNat v i.isLt }

/-- `k[i]`. -/
def readK (s : State) (i : BitVec 3) : BitVec Config.kw := s.k[i.toNat]'i.isLt

/-- `gpr[i]`. -/
def readGpr (s : State) (i : BitVec 4) : Word64 := s.gpr[i.toNat]'i.isLt

/-! ## Exceptions and the instruction pointer -/

/-- Raise an exception (R9 `raise`, R75, R77): the run ends in that fault, with every piece of state as it was before
the step. The spec describes no entry and no return (R77, R78). -/
def raise (f : Fault) : Host.Outcome State Fault Refusal := .fault f

/-- The number of an exception, informative (R73). -/
def Fault.vector : Fault → Nat
  | .invalidOpcode => 6
  | .deviceNotAvailable => 7
  | .memory .stackFault => 12
  | .memory .generalProtection => 13
  | .memory (.pageFault _ _) => 14
  | .memory .alignmentCheck => 17

/-- The error code an exception records, if it records one (R68, R71, R72); its width is log 17. -/
def Fault.errorCode : Fault → Option (BitVec 32)
  | .invalidOpcode => none
  | .deviceNotAvailable => none
  | .memory .stackFault => some 0
  | .memory .generalProtection => some 0
  | .memory (.pageFault code _) => some code
  | .memory .alignmentCheck => some 0

/-- `rip <- rip + ilen` (R14, R58 step 5); refused where the sum does not fit in `AW` bits (log 9). -/
def advanceRip (ilen : Nat) (s : State) : Host.Outcome State Fault Refusal :=
  if s.rip.toNat + ilen < 2 ^ Config.aw s.mode64 then .next { s with rip := s.rip + BitVec.ofNat 64 ilen }
  else .refused .ripWraps

end Sys2Proof.Machine
end

