-- ==== Sys2Proof/Machine/Operands.lean ====
section
/-! DEFINITION. Every operand form: the size of the memory operand (20_memory.md R20), its address (30_encoding.md R43, R46),
the second source (40_shuffle128_common.md R51), the writemask (R40, R54). -/

namespace Sys2Proof.Machine

/-- The size of the memory operand in bytes (R20), which is also the factor `N` of disp8 (R43). -/
def operandBytes (vl esz : Nat) (bcast : Bool) : Nat := if bcast then esz / 8 else vl / 8

/-- A general register as address formation reads it: its low 32 bits in 32-bit modes (R13, R46; log 16). -/
def gprForAddress (s : State) (r : BitVec 4) : Word64 :=
  if s.mode64 then readGpr s r else ((readGpr s r).setWidth 32).setWidth 64

/-- The displacement `D` (R43): sign-extended, disp8 scaled by `n`. -/
def scaledDisp (n : Nat) : Disp → Word64
  | .none => 0
  | .disp8 d => d.signExtend 64 * BitVec.ofNat 64 n
  | .disp32 d => d.signExtend 64

/-- The index register number `0100b` means no index register (R43). -/
def indexValue (s : State) (scale : BitVec 2) (index : BitVec 4) : Word64 :=
  if index = 4 then 0 else gprForAddress s index <<< scale.toNat

/-- The base of the address (R43). Without SIB, `mod = 00b, rm = 101b` takes the address after the instruction in 64-bit
mode and nothing in 32-bit modes (R46). -/
def baseValue (s : State) (ilen : Nat) : MemOperand → Word64
  | .base b _ => gprForAddress s b
  | .disp32 _ => if s.mode64 then s.rip + BitVec.ofNat 64 ilen else 0
  | .sib _ _ b _ => gprForAddress s b
  | .sibNoBase _ _ _ => 0

/-- The scaled index of the address (R43). -/
def scaledIndex (s : State) : MemOperand → Word64
  | .base _ _ => 0
  | .disp32 _ => 0
  | .sib scale index _ _ => indexValue s scale index
  | .sibNoBase scale index _ => indexValue s scale index

/-- The displacement of the address (R43). -/
def dispValue (n : Nat) : MemOperand → Word64
  | .base _ disp => scaledDisp n disp
  | .disp32 d => d.signExtend 64
  | .sib _ _ _ disp => scaledDisp n disp
  | .sibNoBase _ _ d => d.signExtend 64

/-- An address reduced modulo `2^AW` (R43, R46, R57). -/
def wrapAddress (mode64 : Bool) (a : Word64) : Word64 := if mode64 then a else (a.setWidth 32).setWidth 64

/-- `ea` (R43): base, scaled index and displacement, modulo `2^AW`. `n` is the operand's size in bytes. -/
def effectiveAddress (n ilen : Nat) (m : MemOperand) (s : State) : Word64 :=
  wrapAddress s.mode64 (baseValue s ilen m + scaledIndex s m + dispValue n m)

/-- The address and size in bytes of the one data read of a form; none for a register second source (R20, R21). -/
def dataAccess (vl esz : Nat) (o : ShufOperands) (s : State) : Option (Word64 × Nat) :=
  match o.src2 with
  | .reg _ => none
  | .mem m bcast =>
    some (effectiveAddress (operandBytes vl esz bcast) o.ilen m s, operandBytes vl esz bcast)

/-- The exception that the oracle names for the read of operand 3 (R72); the writemask plays no part (R25). -/
def operandFault (vl esz : Nat) (o : ShufOperands) (s : State) : Option Fault :=
  match dataAccess vl esz o s with
  | none => none
  | some (ea, n) => (memFaultFor s.memFault ea.toNat n).map .memory

/-- Every element is `e` (R51). -/
def broadcast (vl esz : Nat) (e : BitVec esz) : BitVec vl := ofElems vl esz (fun _ => e) (vl / esz)

/-- The value `T` of operand 3 (R51). -/
def secondSource (vl esz : Nat) (o : ShufOperands) (s : State) : BitVec vl :=
  match o.src2 with
  | .reg r => (readZmm s r).extractLsb' 0 vl
  | .mem m false => memRead vl (effectiveAddress (operandBytes vl esz false) o.ilen m s) s
  | .mem m true => broadcast vl esz (memRead esz (effectiveAddress (operandBytes vl esz true) o.ilen m s) s)

/-- Whether element `j` takes the new value: `aaa = 000b or k[aaa][j] = 1` (R54). -/
def maskTakes (s : State) (mask : Writemask) (j : Nat) : Bool :=
  match mask with
  | .none => true
  | .merging k => (readK s k).getLsbD j
  | .zeroing k => (readK s k).getLsbD j

/-- `z = 1` (R40). -/
def maskZeroes : Writemask → Bool
  | .none => false
  | .merging _ => false
  | .zeroing _ => true

end Sys2Proof.Machine
end

