-- ==== Sys2Proof/Machine/Shuffle.lean ====
section
/-! DEFINITION. The operation shared by the eight forms (40_shuffle128_common.md R49 to R56, R58) and its admission
(60_exceptions.md R70 d to f, R71, R74). -/

namespace Sys2Proof.Machine

/-! ## Helpers and lane selection -/

/-- `Select2` (R49). -/
def select2 (src : BitVec 256) (control : BitVec 1) : Lane :=
  if control = 0 then src.extractLsb' 0 128 else src.extractLsb' 128 128

/-- `Select4` (R50). -/
def select4 (src : BitVec 512) (control : BitVec 2) : Lane :=
  if control = 0 then src.extractLsb' 0 128
  else if control = 1 then src.extractLsb' 128 128
  else if control = 2 then src.extractLsb' 256 128
  else src.extractLsb' 384 128

/-- `TMP` of a 256-bit form (R52; the high lane is selected from `T`, 90_conflicts.md C1). -/
def shuffle256 (s1 t : BitVec 256) (imm8 : BitVec 8) : BitVec 256 :=
  select2 t (imm8.extractLsb' 1 1) ++ select2 s1 (imm8.extractLsb' 0 1)

/-- `TMP` of a 512-bit form (R53). -/
def shuffle512 (s1 t : BitVec 512) (imm8 : BitVec 8) : BitVec 512 :=
  select4 t (imm8.extractLsb' 6 2) ++ select4 t (imm8.extractLsb' 4 2) ++
    select4 s1 (imm8.extractLsb' 2 2) ++ select4 s1 (imm8.extractLsb' 0 2)

/-! ## Writemask and the value written -/

/-- `NEW` (R54): element by element from `TMP`, the old destination or zero. -/
def applyMask (vl esz : Nat) (takes : Nat → Bool) (zeroes : Bool) (tmp old : BitVec vl) : BitVec vl :=
  ofElems vl esz
    (fun j => if takes j then elemAt esz tmp j else if zeroes then 0 else elemAt esz old j) (vl / esz)

/-- A function from the first source, the second source and `imm8` to `TMP` (R52 or R53). -/
abbrev LaneSelection (vl : Nat) := BitVec vl → BitVec vl → BitVec 8 → BitVec vl

/-- What the form writes to `zmm[d]` (R56): all reads from the state before, bits `MAXVL-1:VL` zero (R55). -/
def newDest (vl esz : Nat) (sel : LaneSelection vl) (o : ShufOperands) (s : State) : ZmmWord :=
  (applyMask vl esz (maskTakes s o.mask) (maskZeroes o.mask)
    (sel ((readZmm s o.s1).extractLsb' 0 vl) (secondSource vl esz o s) o.imm8)
    ((readZmm s o.d).extractLsb' 0 vl)).setWidth Config.maxVL

/-! ## Admission and the step of one form -/

/-- The CPUID features a form needs: AVX512F, and AVX512VL too for 256 bits (R2, R70 d and e). -/
def featurePresent (vl : Nat) (s : State) : Bool := s.hasAVX512F && (vl == 512 || s.hasAVX512VL)

/-- The exceptions before any operand is read, in their order (R70 d to f, R71, R74). -/
def admissionFault (vl : Nat) (s : State) : Option Fault :=
  if !featurePresent vl s || !s.stateEnabled then some .invalidOpcode
  else if s.ts then some .deviceNotAvailable
  else none

/-- What a completed form has written before `rip` moves (R18, R56): the destination register; no flag (R15). -/
def writeBack (vl esz : Nat) (sel : LaneSelection vl) (o : ShufOperands) (s : State) : State :=
  let t := writeZmm o.d (newDest vl esz sel o s) s
  { t with
    rflags := rflagsAfter s.rflags
    mxcsr := mxcsrAfter s.mxcsr }

/-- One step of a form (R58 steps 2 to 5). -/
def execForm (vl esz : Nat) (sel : LaneSelection vl) (o : ShufOperands) (s : State) :
    Host.Outcome State Fault Refusal :=
  match admissionFault vl s with
  | some f => raise f
  | none =>
    match operandFault vl esz o s with
    | some f => raise f
    | none => advanceRip o.ilen (writeBack vl esz sel o s)

end Sys2Proof.Machine
end

