-- ==== Sys2Proof/Machine/Vshuff32x4.lean ====
section
/-! DEFINITION. VSHUFF32x4: lanes of packed single-precision values (41_vshuff32x4.md). -/

namespace Sys2Proof.Machine

/-- Vshuff32x4 at 256 bits, `VL = 256`, `ESZ = 32` (R59). -/
def execVshuff32x4Y (o : ShufOperands) (s : State) : Host.Outcome State Fault Refusal :=
  execForm 256 32 shuffle256 o s

/-- Vshuff32x4 at 512 bits, `VL = 512`, `ESZ = 32` (R60). -/
def execVshuff32x4Z (o : ShufOperands) (s : State) : Host.Outcome State Fault Refusal :=
  execForm 512 32 shuffle512 o s

end Sys2Proof.Machine
end

