-- ==== Sys2Proof/Machine/Vshuff64x2.lean ====
section
/-! DEFINITION. VSHUFF64x2: lanes of packed double-precision values (42_vshuff64x2.md). -/

namespace Sys2Proof.Machine

/-- Vshuff64x2 at 256 bits, `VL = 256`, `ESZ = 64` (R61). -/
def execVshuff64x2Y (o : ShufOperands) (s : State) : Host.Outcome State Fault Refusal :=
  execForm 256 64 shuffle256 o s

/-- Vshuff64x2 at 512 bits, `VL = 512`, `ESZ = 64` (R62). -/
def execVshuff64x2Z (o : ShufOperands) (s : State) : Host.Outcome State Fault Refusal :=
  execForm 512 64 shuffle512 o s

end Sys2Proof.Machine
end

