-- ==== Sys2Proof/Machine/Vshufi32x4.lean ====
section
/-! DEFINITION. VSHUFI32x4: lanes of packed doublewords (43_vshufi32x4.md). -/

namespace Sys2Proof.Machine

/-- Vshufi32x4 at 256 bits, `VL = 256`, `ESZ = 32` (R63). -/
def execVshufi32x4Y (o : ShufOperands) (s : State) : Host.Outcome State Fault Refusal :=
  execForm 256 32 shuffle256 o s

/-- Vshufi32x4 at 512 bits, `VL = 512`, `ESZ = 32` (R64). -/
def execVshufi32x4Z (o : ShufOperands) (s : State) : Host.Outcome State Fault Refusal :=
  execForm 512 32 shuffle512 o s

end Sys2Proof.Machine
end

