-- ==== Sys2Proof/Machine/Vshufi64x2.lean ====
section
/-! DEFINITION. VSHUFI64x2: lanes of packed quadwords (44_vshufi64x2.md). -/

namespace Sys2Proof.Machine

/-- Vshufi64x2 at 256 bits, `VL = 256`, `ESZ = 64` (R65). -/
def execVshufi64x2Y (o : ShufOperands) (s : State) : Host.Outcome State Fault Refusal :=
  execForm 256 64 shuffle256 o s

/-- Vshufi64x2 at 512 bits, `VL = 512`, `ESZ = 64` (R66). -/
def execVshufi64x2Z (o : ShufOperands) (s : State) : Host.Outcome State Fault Refusal :=
  execForm 512 64 shuffle512 o s

end Sys2Proof.Machine
end

