-- ==== Sys2Proof/Machine/Dispatch.lean ====
section
/-! DEFINITION. One arm per instruction (00_scope.md R1). -/

namespace Sys2Proof.Machine

def exec (i : Instr) (s : State) : Host.Outcome State Fault Refusal :=
  match i with
  | .vshuff32x4y o => Sys2Proof.Machine.execVshuff32x4Y o s
  | .vshuff32x4z o => Sys2Proof.Machine.execVshuff32x4Z o s
  | .vshuff64x2y o => Sys2Proof.Machine.execVshuff64x2Y o s
  | .vshuff64x2z o => Sys2Proof.Machine.execVshuff64x2Z o s
  | .vshufi32x4y o => Sys2Proof.Machine.execVshufi32x4Y o s
  | .vshufi32x4z o => Sys2Proof.Machine.execVshufi32x4Z o s
  | .vshufi64x2y o => Sys2Proof.Machine.execVshufi64x2Y o s
  | .vshufi64x2z o => Sys2Proof.Machine.execVshufi64x2Z o s

end Sys2Proof.Machine
end

