-- ==== Sys2Proof/Machine/Fetch.lean ====
section
/-! DEFINITION. The bytes a step fetches (20_memory.md R21; 10_state.md R14) and the store that stands for loading an
instruction. -/

namespace Sys2Proof.Machine

/-- How many bytes a step looks at: the longest instruction, or fewer where the address space ends (R14, R44). -/
def fetchCount (s : State) : Nat := min Config.maxILen (2 ^ Config.aw s.mode64 - s.rip.toNat)

/-- The bytes from `rip` on, in increasing address order (R32). Fetch does not consult `MemFault` (log 12). -/
def fetchBytes (s : State) : List Byte :=
  (List.range (fetchCount s)).map fun m => s.mem.read (s.rip.toNat + m)

/-- `s` with bytes stored from `rip` on, as many as the address space has room for. -/
def storeAtRip (bytes : List Byte) (s : State) : State :=
  { s with mem := s.mem.writeBytes s.rip.toNat (bytes.take (2 ^ Config.aw s.mode64 - s.rip.toNat)) }

end Sys2Proof.Machine
end

