-- ==== Sys2Proof/Machine/Step.lean ====
section
/-! DEFINITION. One step of the machine (40_shuffle128_common.md R58). -/

namespace Sys2Proof.Machine

/-- Fetch at `rip`, decode, run (R58). -/
def step (s : State) : Host.Outcome State Fault Refusal :=
  match decode s.mode64 (fetchBytes s) with
  | .instr i _ => exec i s
  | .invalidOpcode => raise .invalidOpcode
  | .refused r => .refused (.encoding r)

/-- `s` with the instruction of the word `w` stored where the next step fetches it: log 1. -/
def State.withFetchWord (s : State) (nbits w : Nat) : State := storeAtRip (wordBytes nbits w) s

end Sys2Proof.Machine
end

