-- ==== Sys2Proof/Machine/Assembler.lean ====
section
/-! DEFINITION. The assembler spelling of an instruction (30_encoding.md R47): text beside the machine, which no step reads. -/

namespace Sys2Proof

/-- A hexadecimal digit. -/
def hexDigit (d : Nat) : Char := if d < 10 then Char.ofNat (48 + d) else Char.ofNat (55 + d)

/-- The hexadecimal digits of `n`, at least `width` of them, before `acc`. -/
def hexDigits : (fuel width : Nat) → Nat → List Char → List Char
  | 0, _, _, acc => acc
  | fuel + 1, width, n, acc =>
    if n = 0 ∧ width = 0 then acc else hexDigits fuel (width - 1) (n / 16) (hexDigit (n % 16) :: acc)

/-- `n` in hexadecimal with the suffix `H`. -/
def hexText (width n : Nat) : String := String.ofList (hexDigits 17 width n []) ++ "H"

/-- `s` in braces. -/
def inBraces (s : String) : String := String.ofList [Char.ofNat 123] ++ s ++ String.ofList [Char.ofNat 125]

/-- The names of the general registers in number order (R13). -/
def gprName (r : BitVec 4) : String :=
  ["rax", "rcx", "rdx", "rbx", "rsp", "rbp", "rsi", "rdi",
    "r8", "r9", "r10", "r11", "r12", "r13", "r14", "r15"].getD r.toNat ""

/-- `ymmN` for 256 bits, `zmmN` for 512 bits (R47). -/
def vregText (vl : Nat) (r : BitVec 5) : String := (if vl = 256 then "ymm" else "zmm") ++ Nat.repr r.toNat

/-- A displacement after other parts: nothing, `+dH` or `-dH`. -/
def dispText (d : Int) : String :=
  if d = 0 then "" else if d < 0 then "-" ++ hexText 1 d.natAbs else "+" ++ hexText 1 d.natAbs

/-- A displacement that stands alone. -/
def lonelyDispText (d : Int) : String :=
  if d < 0 then "-" ++ hexText 1 d.natAbs else hexText 1 d.natAbs

/-- A displacement as a number, disp8 scaled by `n` (R43). -/
def dispInt (n : Nat) : Disp → Int
  | .none => 0
  | .disp8 d => d.toInt * n
  | .disp32 d => d.toInt

def indexText (scale : BitVec 2) (index : BitVec 4) : String :=
  gprName index ++ "*" ++ Nat.repr (2 ^ scale.toNat)

/-- `[base + index*scale + disp]` (R47). -/
def memText (mode64 : Bool) (n : Nat) : MemOperand → String
  | .base b disp => "[" ++ gprName b ++ dispText (dispInt n disp) ++ "]"
  | .disp32 d => "[" ++ (if mode64 then "rip" ++ dispText d.toInt else lonelyDispText d.toInt) ++ "]"
  | .sib scale index b disp =>
    "[" ++ gprName b ++ (if index = 4 then "" else "+" ++ indexText scale index) ++ dispText (dispInt n disp) ++ "]"
  | .sibNoBase scale index d =>
    "[" ++ (if index = 4 then lonelyDispText d.toInt else indexText scale index ++ dispText d.toInt) ++ "]"

/-- Operand 3; a broadcast is followed by the count of elements in braces (R47). -/
def src2Text (mode64 : Bool) (vl esz : Nat) : Src2 → String
  | .reg r => vregText vl r
  | .mem m false => memText mode64 (vl / 8) m
  | .mem m true => memText mode64 (esz / 8) m ++ inBraces ("1to" ++ Nat.repr (vl / esz))

/-- The optional writemask and masking mode (R47). -/
def maskText : Writemask → String
  | .none => ""
  | .merging k => inBraces ("k" ++ Nat.repr k.toNat)
  | .zeroing k => inBraces ("k" ++ Nat.repr k.toNat) ++ inBraces "z"

/-- The mnemonic; letter case is not significant and the small `x` is written (R47, 90_conflicts.md C9). -/
def mnemonicText : Instr → String
  | .vshuff32x4y _ => "VSHUFF32x4"
  | .vshuff32x4z _ => "VSHUFF32x4"
  | .vshuff64x2y _ => "VSHUFF64x2"
  | .vshuff64x2z _ => "VSHUFF64x2"
  | .vshufi32x4y _ => "VSHUFI32x4"
  | .vshufi32x4z _ => "VSHUFI32x4"
  | .vshufi64x2y _ => "VSHUFI64x2"
  | .vshufi64x2z _ => "VSHUFI64x2"

/-- `MNEMONIC dest, src1, src2, imm8`, destination first (R47); the layout of numbers is log 15. -/
def assemblerText (mode64 : Bool) (i : Instr) : String :=
  mnemonicText i ++ " " ++ vregText i.vl i.operands.d ++ maskText i.operands.mask ++ ", " ++
    vregText i.vl i.operands.s1 ++ ", " ++ src2Text mode64 i.vl i.esz i.operands.src2 ++ ", " ++
    hexText 2 i.operands.imm8.toNat

end Sys2Proof
end

