-- ==== Sys2Proof/Machine/Intrinsics.lean ====
section
/-! DEFINITION. The fifteen compiler intrinsics (30_encoding.md R48) as functions on values: `a` the first source, `b` the
second source, `imm` the immediate, `k` the writemask, `s` the old destination. They are no part of a step. -/

namespace Sys2Proof.Machine

/-- No `mask` in the name: the unmasked form (R48). -/
def unmaskedIntrinsic (vl esz : Nat) (sel : LaneSelection vl) (a b : BitVec vl) (imm : BitVec 8) : BitVec vl :=
  applyMask vl esz (fun _ => true) false (sel a b imm) 0

/-- `_mask_`: the merging-masked form (R48). -/
def mergingIntrinsic (vl esz kl : Nat) (sel : LaneSelection vl) (s : BitVec vl) (k : BitVec kl) (a b : BitVec vl)
    (imm : BitVec 8) : BitVec vl :=
  applyMask vl esz (fun j => k.getLsbD j) false (sel a b imm) s

/-- `_maskz_`: the zeroing-masked form (R48). -/
def zeroingIntrinsic (vl esz kl : Nat) (sel : LaneSelection vl) (k : BitVec kl) (a b : BitVec vl) (imm : BitVec 8) :
    BitVec vl :=
  applyMask vl esz (fun j => k.getLsbD j) true (sel a b imm) 0

def mm512_shuffle_i32x4 (a b : BitVec 512) (imm : BitVec 8) := unmaskedIntrinsic 512 32 shuffle512 a b imm
def mm512_mask_shuffle_i32x4 (s : BitVec 512) (k : BitVec 16) (a b : BitVec 512) (imm : BitVec 8) :=
  mergingIntrinsic 512 32 16 shuffle512 s k a b imm
def mm512_maskz_shuffle_i32x4 (k : BitVec 16) (a b : BitVec 512) (imm : BitVec 8) :=
  zeroingIntrinsic 512 32 16 shuffle512 k a b imm
def mm256_shuffle_i32x4 (a b : BitVec 256) (imm : BitVec 8) := unmaskedIntrinsic 256 32 shuffle256 a b imm
def mm256_mask_shuffle_i32x4 (s : BitVec 256) (k : BitVec 8) (a b : BitVec 256) (imm : BitVec 8) :=
  mergingIntrinsic 256 32 8 shuffle256 s k a b imm
def mm256_maskz_shuffle_i32x4 (k : BitVec 8) (a b : BitVec 256) (imm : BitVec 8) :=
  zeroingIntrinsic 256 32 8 shuffle256 k a b imm
def mm512_shuffle_f32x4 (a b : BitVec 512) (imm : BitVec 8) := unmaskedIntrinsic 512 32 shuffle512 a b imm
def mm512_mask_shuffle_f32x4 (s : BitVec 512) (k : BitVec 16) (a b : BitVec 512) (imm : BitVec 8) :=
  mergingIntrinsic 512 32 16 shuffle512 s k a b imm
def mm512_maskz_shuffle_f32x4 (k : BitVec 16) (a b : BitVec 512) (imm : BitVec 8) :=
  zeroingIntrinsic 512 32 16 shuffle512 k a b imm
def mm512_shuffle_i64x2 (a b : BitVec 512) (imm : BitVec 8) := unmaskedIntrinsic 512 64 shuffle512 a b imm
def mm512_mask_shuffle_i64x2 (s : BitVec 512) (k : BitVec 8) (a b : BitVec 512) (imm : BitVec 8) :=
  mergingIntrinsic 512 64 8 shuffle512 s k a b imm
def mm512_maskz_shuffle_i64x2 (k : BitVec 8) (a b : BitVec 512) (imm : BitVec 8) :=
  zeroingIntrinsic 512 64 8 shuffle512 k a b imm
def mm512_shuffle_f64x2 (a b : BitVec 512) (imm : BitVec 8) := unmaskedIntrinsic 512 64 shuffle512 a b imm
def mm512_mask_shuffle_f64x2 (s : BitVec 512) (k : BitVec 8) (a b : BitVec 512) (imm : BitVec 8) :=
  mergingIntrinsic 512 64 8 shuffle512 s k a b imm
def mm512_maskz_shuffle_f64x2 (k : BitVec 8) (a b : BitVec 512) (imm : BitVec 8) :=
  zeroingIntrinsic 512 64 8 shuffle512 k a b imm

end Sys2Proof.Machine
end

