-- ==== Sys2Proof/Safety.lean ====
section
/-! DEFINITION. The terms claims are stated in: the invariant of the state, the launch premises of 70_reset_and_hazards.md
R84, and when a form completes (60_exceptions.md R70 to R72). -/

namespace Sys2Proof.Machine

/-- What every step keeps: memory canonical (R17), `rip` within `AW` bits (R14). -/
def State.Inv (s : State) : Prop := s.mem.wf = true ∧ s.rip.toNat < 2 ^ Config.aw s.mode64

/-- `FeaturePresent` of R84, for a form of `vl` bits. -/
def FeaturePresent (vl : Nat) (s : State) : Prop :=
  s.hasAVX512F = true ∧ (vl = 256 → s.hasAVX512VL = true)

/-- `StateEnabled` of R84. -/
def StateEnabled (s : State) : Prop := s.stateEnabled = true

/-- `NoTS` of R84. -/
def NoTS (s : State) : Prop := s.ts = false

/-- No exception is raised before the operands are read (R70, R71). -/
def Admitted (vl : Nat) (s : State) : Prop := FeaturePresent vl s ∧ StateEnabled s ∧ NoTS s

/-- `OperandReadable` of R84: the oracle names no exception for the read of operand 3, if there is one. -/
def OperandReadable (vl esz : Nat) (o : ShufOperands) (s : State) : Prop :=
  ∀ ea n, dataAccess vl esz o s = some (ea, n) → memFaultFor s.memFault ea.toNat n = none

/-- `rip + ilen` fits in `AW` bits (R14). -/
def RipFits (o : ShufOperands) (s : State) : Prop := s.rip.toNat + o.ilen < 2 ^ Config.aw s.mode64

/-- When the instruction `i` completes at `s`. -/
def Completes (i : Instr) (s : State) : Prop :=
  Admitted i.vl s ∧ OperandReadable i.vl i.esz i.operands s ∧ RipFits i.operands s

/-- The two states have the same status flags and floating-point status (R15). -/
def SameStatus (s t : State) : Prop := t.rflags = s.rflags ∧ t.mxcsr = s.mxcsr

/-- The two states have the same parameters of the run (R7). -/
def SameParameters (s t : State) : Prop :=
  t.mode64 = s.mode64 ∧ t.hasAVX512F = s.hasAVX512F ∧ t.hasAVX512VL = s.hasAVX512VL ∧
    t.stateEnabled = s.stateEnabled ∧ t.ts = s.ts ∧ t.memFault = s.memFault

/-- Everything but the vector registers and `rip` is the same (R18): every byte of memory reads as before, and memory is
the same list. -/
def SameBesideVectors (s t : State) : Prop :=
  t.k = s.k ∧ t.gpr = s.gpr ∧ SameStatus s t ∧ (∀ a, t.mem.read a = s.mem.read a) ∧ t.mem = s.mem ∧
    SameParameters s t

/-- The frame of a completed form (R18): no vector register but `d`, and nothing else but `rip`. -/
def ShuffleFrame (o : ShufOperands) (s t : State) : Prop :=
  (∀ r : BitVec 5, r ≠ o.d → readZmm t r = readZmm s r) ∧ SameBesideVectors s t

/-- The lane selection of a form: R52 for 256 bits, R53 for 512 bits. -/
def laneSelection : (i : Instr) → LaneSelection i.vl
  | .vshuff32x4y _ => shuffle256
  | .vshuff32x4z _ => shuffle512
  | .vshuff64x2y _ => shuffle256
  | .vshuff64x2z _ => shuffle512
  | .vshufi32x4y _ => shuffle256
  | .vshufi32x4z _ => shuffle512
  | .vshufi64x2y _ => shuffle256
  | .vshufi64x2z _ => shuffle512

/-- The same form with other operands. -/
def withOperands (i : Instr) (o : ShufOperands) : Instr :=
  match i with
  | .vshuff32x4y _ => .vshuff32x4y o
  | .vshuff32x4z _ => .vshuff32x4z o
  | .vshuff64x2y _ => .vshuff64x2y o
  | .vshuff64x2z _ => .vshuff64x2z o
  | .vshufi32x4y _ => .vshufi32x4y o
  | .vshufi32x4z _ => .vshufi32x4z o
  | .vshufi64x2y _ => .vshufi64x2y o
  | .vshufi64x2z _ => .vshufi64x2z o

/-- The low `VL` bits of the destination that a completed form leaves. -/
def LeavesInDestination (i : Instr) (s : State) (value : BitVec i.vl) : Prop :=
  ∀ t, exec i s = .next t → (readZmm t i.operands.d).extractLsb' 0 i.vl = value

/-- Element `j` of `TMP` by the one formula that R53 gives for both lengths: with `w` selector bits for a lane, element
`j` lies in lane `n` at position `p` and is element `c * (128/ESZ) + p` of the first source for the lower half of the
lanes, of the second source for the upper half, where `c = imm8[w*n+w-1 : w*n]`. -/
def selectedElement {vl : Nat} (esz : Nat) (s1 t : BitVec vl) (imm8 : BitVec 8) (j : Nat) : BitVec esz :=
  let w := if vl = 256 then 1 else 2
  let n := j * esz / 128
  let p := j % (128 / esz)
  let c := imm8.toNat / 2 ^ (w * n) % 2 ^ w
  elemAt esz (if n < vl / 128 / 2 then s1 else t) (c * (128 / esz) + p)

/-- Element `j` of the destination under a writemask (R54). -/
def maskedElement {w : Nat} (s : State) (mask : Writemask) (j : Nat) (new old : BitVec w) : BitVec w :=
  match mask with
  | .none => new
  | .merging k => if (readK s k).getLsbD j then new else old
  | .zeroing k => if (readK s k).getLsbD j then new else 0

/-! ## The fields of an encoding, as the rules of 30_encoding.md name them -/

/-- The fixed fields that make a byte string one of the group (R34, R45): `62H`, `mm`, `pp` and the opcode byte. -/
def GroupHeader (e p0 p1 op : Byte) : Prop :=
  e = 0x62 ∧ p0.extractLsb' 0 2 = 3 ∧ p1.extractLsb' 0 2 = 1 ∧ (op = 0x23 ∨ op = 0x43)

/-- The subset of R46 for 32-bit modes: `R̄`, `X̄`, `B̄`, `R̄'`, `v̄[3]`, `V̄'` all 1. -/
def Mode32Admits (p0 p1 p2 : Byte) : Prop :=
  p0.extractLsb' 4 4 = 15 ∧ p1.extractLsb' 6 1 = 1 ∧ p2.extractLsb' 3 1 = 1

/-- The encodings of R68 and R70 a to c: `L'L = 00b` or `11b`, `P0[3:2] != 00b`, `P1[2] != 1`. -/
def InvalidFields (p0 p1 p2 : Byte) : Prop :=
  p2.extractLsb' 5 2 = 0 ∨ p2.extractLsb' 5 2 = 3 ∨ p0.extractLsb' 2 2 ≠ 0 ∨ p1.extractLsb' 2 1 ≠ 1

/-- `mod = 11b` and `b = 1` (R45). -/
def RegisterBroadcastFields (p2 modrm : Byte) : Prop := modrm.extractLsb' 6 2 = 3 ∧ p2.extractLsb' 4 1 = 1

/-- `aaa = 000b` and `z = 1` (R45). -/
def ZeroingWithoutMaskFields (p2 : Byte) : Prop := p2.extractLsb' 0 3 = 0 ∧ p2.extractLsb' 7 1 = 1

/-- `ilen` from ModRM and the byte after it (R43, R44). -/
def encodedLength (modrm : Byte) (tail : List Byte) : Nat :=
  let mod := modrm.extractLsb' 6 2
  let rm := modrm.extractLsb' 0 3
  let sib := if mod ≠ 3 ∧ rm = 4 then 1 else 0
  let noBase := rm = 5 ∨ (rm = 4 ∧ (tail.headD 0).extractLsb' 0 3 = 5)
  6 + sib + (if mod = 1 then 1 else if mod = 2 ∨ (mod = 0 ∧ noBase) then 4 else 0) + 1

/-- The bytes begin with the little-endian `disp32` `d` (R22, R32). -/
def Disp32Bytes (bytes : List Byte) (d : BitVec 32) : Prop := ∀ m, m < 4 → bytes[m]? = some (d.extractLsb' (8 * m) 8)

/-- The displacement that `mod` announces, at the head of the bytes (R43). -/
def DispFromFields (mod : BitVec 2) (bytes : List Byte) : Disp → Prop
  | .none => mod = 0
  | .disp8 d => mod = 1 ∧ bytes[0]? = some d
  | .disp32 d => mod = 2 ∧ Disp32Bytes bytes d

/-- The memory operand that `X`, `B`, ModRM and the bytes after it name, row by row of R43. -/
def MemOperandFromFields (p0 modrm : Byte) (tail : List Byte) : MemOperand → Prop
  | .base b disp =>
    modrm.extractLsb' 0 3 ≠ 4 ∧ ¬ (modrm.extractLsb' 6 2 = 0 ∧ modrm.extractLsb' 0 3 = 5) ∧
      b.toNat = 8 * (1 - (p0.extractLsb' 5 1).toNat) + (modrm.extractLsb' 0 3).toNat ∧
      DispFromFields (modrm.extractLsb' 6 2) tail disp
  | .disp32 d => modrm.extractLsb' 6 2 = 0 ∧ modrm.extractLsb' 0 3 = 5 ∧ Disp32Bytes tail d
  | .sib scale index b disp =>
    modrm.extractLsb' 0 3 = 4 ∧
      ∃ sib, tail[0]? = some sib ∧ ¬ (modrm.extractLsb' 6 2 = 0 ∧ sib.extractLsb' 0 3 = 5) ∧
        scale = sib.extractLsb' 6 2 ∧
        index.toNat = 8 * (1 - (p0.extractLsb' 6 1).toNat) + (sib.extractLsb' 3 3).toNat ∧
        b.toNat = 8 * (1 - (p0.extractLsb' 5 1).toNat) + (sib.extractLsb' 0 3).toNat ∧
        DispFromFields (modrm.extractLsb' 6 2) (tail.drop 1) disp
  | .sibNoBase scale index d =>
    modrm.extractLsb' 6 2 = 0 ∧ modrm.extractLsb' 0 3 = 4 ∧
      ∃ sib, tail[0]? = some sib ∧ sib.extractLsb' 0 3 = 5 ∧ scale = sib.extractLsb' 6 2 ∧
        index.toNat = 8 * (1 - (p0.extractLsb' 6 1).toNat) + (sib.extractLsb' 3 3).toNat ∧
        Disp32Bytes (tail.drop 1) d

/-- The general registers that a memory operand names have numbers below `n`. -/
def MemOperandBelow (n : Nat) : MemOperand → Prop
  | .base b _ => b.toNat < n
  | .disp32 _ => True
  | .sib _ index b _ => index.toNat < n ∧ b.toNat < n
  | .sibNoBase _ index _ => index.toNat < n

end Sys2Proof.Machine
end

