-- ==== Sys2Proof/Certificates/Slice0/Obligations.lean ====
section
/-! DEFINITION. The statements for the provers. A statement over `i : Instr` is about all eight forms: vshuff32x4y,
vshuff32x4z, vshuff64x2y, vshuff64x2z, vshufi32x4y, vshufi32x4z, vshufi64x2y, vshufi64x2z. -/

open Sys2Proof Sys2Proof.Machine

/-! ## Reset (10_state.md R19 gives no value: every value here is the model's choice) -/

/-- The values after reset that the model chose: logs 2 (registers), 3 (parameters) and 4 (memory). -/
def Obligations.ResetLeavesTheLoggedValues : Prop :=
  (∀ r : BitVec 5, readZmm State.reset r = 0) ∧ (∀ r : BitVec 3, readK State.reset r = 0) ∧
    (∀ r : BitVec 4, readGpr State.reset r = if r = 2 then 0x600 else 0) ∧
    State.reset.rip = 0xFFFFFFF0 ∧ State.reset.rflags = 2 ∧ State.reset.mxcsr = 0x1F80 ∧
    (∀ a, State.reset.mem.read a = 0) ∧ Admitted 256 State.reset ∧ Admitted 512 State.reset ∧
    State.reset.mode64 = true ∧ (∀ addr n, memFaultFor State.reset.memFault addr n = none)

/-- The invariant holds after reset (logs 2 and 4). -/
def Obligations.ResetMeetsTheInvariant : Prop := State.reset.Inv

/-! ## Whole-machine rules -/

/-- Every step keeps memory canonical and `rip` within `AW` bits (R14, R17). -/
def Obligations.StepKeepsTheInvariant : Prop :=
  ∀ s t : State, s.Inv → step s = .next t → t.Inv

/-- Along any run of completed steps, opmasks, general registers, flags, memory and parameters keep their values (R18,
R21, R30). -/
def Obligations.RunWritesOnlyVectorsAndRip : Prop :=
  ∀ (n : Nat) (s t : State), Host.Core.run core n s = .next t → SameBesideVectors s t

/-- A run of `n` completed steps moves `rip` forward by 7 to 12 bytes a step and never wraps (R14, R44, R58, R88). -/
def Obligations.RunMovesRipForward : Prop :=
  ∀ (n : Nat) (s t : State), Host.Core.run core n s = .next t →
    s.rip.toNat + 7 * n ≤ t.rip.toNat ∧ t.rip.toNat ≤ s.rip.toNat + 12 * n

/-- Where a step faults, one of the rules R68, R70, R71, R72 says so: `#UD` for an encoding of the group with the fields of
R68 or R70 a to c, `#UD` for a missing feature or a state not enabled (R70 d to f), `#NM` for TS (R71), or the fault the
oracle names for the operand (R72). No other exception, no SIMD floating-point exception, is ever raised (R67, R69). -/
def Obligations.FaultsOnlyByTheRules : Prop :=
  ∀ (s : State) (f : Fault), step s = .fault f →
    (f = .invalidOpcode ∧
      ((∃ e p0 p1 p2 op modrm tail, fetchBytes s = e :: p0 :: p1 :: p2 :: op :: modrm :: tail ∧
          GroupHeader e p0 p1 op ∧ InvalidFields p0 p1 p2) ∨
        ∃ i rest, decode s.mode64 (fetchBytes s) = .instr i rest ∧ ¬ (FeaturePresent i.vl s ∧ StateEnabled s))) ∨
    (f = .deviceNotAvailable ∧ s.ts = true) ∨
    ∃ i rest m b e, decode s.mode64 (fetchBytes s) = .instr i rest ∧ i.operands.src2 = .mem m b ∧
      f = .memory e ∧
      memFaultFor s.memFault
        (effectiveAddress (operandBytes i.vl i.esz b) i.ilen m s).toNat (operandBytes i.vl i.esz b) = some e

/-! ## Encoding -/

/-- Decoding the bytes of a well-formed instruction gives it back, with the bytes after it untouched, in both modes
(R32 to R46). -/
def Obligations.DecodeOfEncode : Prop :=
  ∀ (mode64 : Bool) (i : Instr) (rest : List Byte), i.wellFormed mode64 = true →
    decode mode64 (encode i ++ rest) = .instr i rest

/-- What the decoder reads is well formed in the mode it read it in (R40, R43, R45, R46). -/
def Obligations.DecodedIsWellFormed : Prop :=
  ∀ (mode64 : Bool) (bytes : List Byte) (i : Instr) (rest : List Byte),
    decode mode64 bytes = .instr i rest → i.wellFormed mode64 = true

/-- What 32-bit modes admit is read in 64-bit mode as the same instruction, and names vector registers and general
registers 0 to 7 only (R3, R46). That the two modes read an encoding alike is the model's reading of R46: log 16. -/
def Obligations.Mode32IsASubsetOfMode64 : Prop :=
  ∀ (bytes : List Byte) (i : Instr) (rest : List Byte), decode false bytes = .instr i rest →
    decode true bytes = .instr i rest ∧ i.operands.d.toNat < 8 ∧ i.operands.s1.toNat < 8 ∧
      (∀ r, i.operands.src2 = .reg r → r.toNat < 8) ∧
      ∀ m b, i.operands.src2 = .mem m b → MemOperandBelow 8 m

/-- The length of an instruction, from ModRM and SIB alone (R44). -/
def Obligations.LengthFromModrmAndSib : Prop :=
  ∀ (mode64 : Bool) (e p0 p1 p2 op modrm : Byte) (tail : List Byte) (i : Instr) (rest : List Byte),
    decode mode64 (e :: p0 :: p1 :: p2 :: op :: modrm :: tail) = .instr i rest →
    let mod := modrm.extractLsb' 6 2
    let rm := modrm.extractLsb' 0 3
    let sib := if mod ≠ 3 ∧ rm = 4 then 1 else 0
    let noBase := rm = 5 ∨ (rm = 4 ∧ (tail.headD 0).extractLsb' 0 3 = 5)
    let dispbytes := if mod = 1 then 1 else if mod = 2 ∨ (mod = 0 ∧ noBase) then 4 else 0
    i.ilen = 6 + sib + dispbytes + 1 ∧ (mod = 3 → i.ilen = 7) ∧ (mod ≠ 3 → 7 ≤ i.ilen ∧ i.ilen ≤ 12) ∧
      6 + tail.length = i.ilen + rest.length ∧ rest = tail.drop (i.ilen - 6)

/-- The register numbers of the destination and of the first source (R37, R38). -/
def Obligations.RegisterNumbersFromFields : Prop :=
  ∀ (mode64 : Bool) (e p0 p1 p2 op modrm : Byte) (tail : List Byte) (i : Instr) (rest : List Byte),
    decode mode64 (e :: p0 :: p1 :: p2 :: op :: modrm :: tail) = .instr i rest →
    i.operands.d.toNat =
        16 * (1 - (p0.extractLsb' 4 1).toNat) + 8 * (1 - (p0.extractLsb' 7 1).toNat) + (modrm.extractLsb' 3 3).toNat ∧
      i.operands.s1.toNat = 16 * (1 - (p2.extractLsb' 3 1).toNat) + (15 - (p1.extractLsb' 3 4).toNat)

/-- The second source is a register exactly when `mod = 11b`, with its number from `X`, `B` and `rm` (R39); else it is the
memory operand that `X`, `B`, ModRM, SIB and the displacement bytes name (R43), with broadcast the bit `b` (R41); mask and
masking mode are `aaa` and `z` (R40); `imm8` is the last byte (R42). -/
def Obligations.OtherOperandsFromFields : Prop :=
  ∀ (mode64 : Bool) (e p0 p1 p2 op modrm : Byte) (tail : List Byte) (i : Instr) (rest : List Byte),
    decode mode64 (e :: p0 :: p1 :: p2 :: op :: modrm :: tail) = .instr i rest →
    (match i.operands.src2 with
      | .reg r =>
        modrm.extractLsb' 6 2 = 3 ∧
          r.toNat = 16 * (1 - (p0.extractLsb' 6 1).toNat) + 8 * (1 - (p0.extractLsb' 5 1).toNat) +
            (modrm.extractLsb' 0 3).toNat
      | .mem m bcast =>
        modrm.extractLsb' 6 2 ≠ 3 ∧ (bcast = true ↔ p2.extractLsb' 4 1 = 1) ∧ MemOperandFromFields p0 modrm tail m) ∧
    (match i.operands.mask with
      | .none => p2.extractLsb' 0 3 = 0 ∧ p2.extractLsb' 7 1 = 0
      | .merging k => k = p2.extractLsb' 0 3 ∧ k ≠ 0 ∧ p2.extractLsb' 7 1 = 0
      | .zeroing k => k = p2.extractLsb' 0 3 ∧ k ≠ 0 ∧ p2.extractLsb' 7 1 = 1) ∧
    tail[i.ilen - 7]? = some i.operands.imm8

/-- The first five bytes of what decodes match the row of the form in the table of R34. -/
def Obligations.HeaderMatchesTheFormsRow : Prop :=
  ∀ (mode64 : Bool) (e p0 p1 p2 op modrm : Byte) (tail : List Byte) (i : Instr) (rest : List Byte),
    decode mode64 (e :: p0 :: p1 :: p2 :: op :: modrm :: tail) = .instr i rest →
    e = 0x62 ∧ p0 &&& 0x0F = 0x03 ∧
      match i with
      | .vshuff32x4y _ => p1 &&& 0x87 = 0x05 ∧ p2 &&& 0x60 = 0x20 ∧ op = 0x23
      | .vshuff32x4z _ => p1 &&& 0x87 = 0x05 ∧ p2 &&& 0x60 = 0x40 ∧ op = 0x23
      | .vshuff64x2y _ => p1 &&& 0x87 = 0x85 ∧ p2 &&& 0x60 = 0x20 ∧ op = 0x23
      | .vshuff64x2z _ => p1 &&& 0x87 = 0x85 ∧ p2 &&& 0x60 = 0x40 ∧ op = 0x23
      | .vshufi32x4y _ => p1 &&& 0x87 = 0x05 ∧ p2 &&& 0x60 = 0x20 ∧ op = 0x43
      | .vshufi32x4z _ => p1 &&& 0x87 = 0x05 ∧ p2 &&& 0x60 = 0x40 ∧ op = 0x43
      | .vshufi64x2y _ => p1 &&& 0x87 = 0x85 ∧ p2 &&& 0x60 = 0x20 ∧ op = 0x43
      | .vshufi64x2z _ => p1 &&& 0x87 = 0x85 ∧ p2 &&& 0x60 = 0x40 ∧ op = 0x43

/-- Byte strings written out in 95_test_vectors.md §2.3 (E1, E8, E10, E11, E16, E30) decode to what they stand for. -/
def Obligations.WrittenOutWordsDecode : Prop :=
  decode true [0x62, 0xF3, 0x6D, 0x28, 0x23, 0xCB, 0x03] = .instr (.vshuff32x4y ⟨1, 2, .reg 3, .none, 0x03⟩) [] ∧
  decode true [0x62, 0xF3, 0xED, 0x48, 0x43, 0xCB, 0x1B] = .instr (.vshufi64x2z ⟨1, 2, .reg 3, .none, 0x1B⟩) [] ∧
  decode true [0x62, 0x03, 0xFD, 0x40, 0x23, 0xF8, 0xFF] = .instr (.vshuff64x2z ⟨31, 16, .reg 24, .none, 0xFF⟩) [] ∧
  decode true [0x62, 0x53, 0xB5, 0xC5, 0x23, 0xCE, 0x39] = .instr (.vshuff64x2z ⟨9, 25, .reg 14, .zeroing 5, 0x39⟩) [] ∧
  decode true [0x62, 0x83, 0x0D, 0x57, 0x23, 0x4C, 0x91, 0x40, 0x9C] =
    .instr (.vshuff32x4z ⟨17, 30, .mem (.sib 2 10 9 (.disp8 0x40)) true, .merging 7, 0x9C⟩) [] ∧
  decode true [0x62, 0xF3, 0x6D, 0x48, 0x23, 0x0C, 0xCD, 0x00, 0x10, 0x00, 0x00, 0x00] =
    .instr (.vshuff32x4z ⟨1, 2, .mem (.sibNoBase 3 1 0x1000) false, .none, 0x00⟩) []

/-! ## Encodings outside the eight forms -/

/-- `L'L = 00b` or `11b` with either opcode, and reserved prefix bits, raise `#UD` whatever the rest of the state holds
(R58, R68, R70 a to c): in both modes, for every instruction whose bytes lie below the top of the address space, unless
the encoding is refused, which goes first (log 10). -/
def Obligations.InvalidEncodingsRaiseUD : Prop :=
  ∀ (s : State) (e p0 p1 p2 op modrm : Byte) (tail : List Byte),
    fetchBytes s = e :: p0 :: p1 :: p2 :: op :: modrm :: tail → GroupHeader e p0 p1 op →
    (s.mode64 = false → Mode32Admits p0 p1 p2) →
    s.rip.toNat + encodedLength modrm tail ≤ 2 ^ Config.aw s.mode64 →
    ¬ RegisterBroadcastFields p2 modrm → ¬ ZeroingWithoutMaskFields p2 →
    InvalidFields p0 p1 p2 → step s = .fault .invalidOpcode

/-- A register second source with `b = 1`, and `z = 1` without a writemask, have no meaning (R45, D10): in both modes, for
every instruction whose bytes lie below the top of the address space. They are refused where a `#UD` condition holds as
well, because step 1 of R58 goes first: log 10. -/
def Obligations.ReservedEncodingsAreRefused : Prop :=
  ∀ (s : State) (e p0 p1 p2 op modrm : Byte) (tail : List Byte),
    fetchBytes s = e :: p0 :: p1 :: p2 :: op :: modrm :: tail → GroupHeader e p0 p1 op →
    (s.mode64 = false → Mode32Admits p0 p1 p2) →
    s.rip.toNat + encodedLength modrm tail ≤ 2 ^ Config.aw s.mode64 →
    (RegisterBroadcastFields p2 modrm → step s = .refused (.encoding .registerBroadcast)) ∧
    (¬ RegisterBroadcastFields p2 modrm → ZeroingWithoutMaskFields p2 →
      step s = .refused (.encoding .zeroingWithoutMask))

/-- A first byte other than `62H` (a prefix byte among them) and another `pp`, `mm` or opcode are refused, and in 32-bit
modes so is every encoding outside the subset of R46 (R45, R46). They are refused where a `#UD` condition holds as well,
because step 1 of R58 goes first: log 10. -/
def Obligations.ForeignEncodingsAreRefused : Prop :=
  ∀ (s : State) (e p0 p1 p2 op modrm : Byte) (tail : List Byte),
    fetchBytes s = e :: p0 :: p1 :: p2 :: op :: modrm :: tail →
    (e ≠ 0x62 ∨ p0.extractLsb' 0 2 ≠ 3 ∨ p1.extractLsb' 0 2 ≠ 1 ∨ (op ≠ 0x23 ∧ op ≠ 0x43) ∨
      (s.mode64 = false ∧
        (p0.extractLsb' 4 4 ≠ 15 ∨ p1.extractLsb' 6 1 ≠ 1 ∨ p2.extractLsb' 3 1 ≠ 1))) →
    ∃ r, step s = .refused (.encoding r)

/-- An instruction whose bytes straddle the top of the address space is refused (R14, R44; log 9): where fewer than seven
bytes are left below the top, and where ModRM and SIB announce more bytes than are left. -/
def Obligations.StraddlingInstructionIsRefused : Prop :=
  ∀ s : State,
    (2 ^ Config.aw s.mode64 < s.rip.toNat + 7 → ∃ r, step s = .refused (.encoding r)) ∧
    ∀ (e p0 p1 p2 op modrm : Byte) (tail : List Byte),
      fetchBytes s = e :: p0 :: p1 :: p2 :: op :: modrm :: tail →
      2 ^ Config.aw s.mode64 < s.rip.toNat + encodedLength modrm tail → ∃ r, step s = .refused (.encoding r)

/-! ## A step runs the decoded instruction -/

/-- A step whose bytes decode to `i` is `exec i`; nothing stands around it: `exec` itself moves `rip` (R58). -/
def Obligations.StepRunsTheDecodedInstruction : Prop :=
  ∀ (s : State) (i : Instr) (rest : List Byte), decode s.mode64 (fetchBytes s) = .instr i rest → step s = exec i s

/-- A step whose memory holds the encoding of a well-formed instruction at `rip`, below the top of the address space,
runs that instruction (R32, R58). -/
def Obligations.StepRunsTheEncodedInstruction : Prop :=
  ∀ (s : State) (i : Instr), i.wellFormed s.mode64 = true →
    s.rip.toNat + i.ilen ≤ 2 ^ Config.aw s.mode64 →
    (∀ m, m < i.ilen → some (s.mem.read (s.rip.toNat + m)) = (encode i)[m]?) →
    step s = exec i s

/-- Storing a table word where the next step fetches makes that step run the word's instruction (the model's load,
log 1). -/
def Obligations.FetchWordRunsTheTableWord : Prop :=
  ∀ (s : State) (nbits w : Nat) (i : Instr), s.mem.wf = true → s.mode64 = true → s.rip.toNat + 12 ≤ 2 ^ 64 →
    decodeTableWord nbits w = some i → step (s.withFetchWord nbits w) = exec i (s.withFetchWord nbits w)

/-! ## When a form completes, faults, is refused -/

/-- A form completes exactly under the launch premises of R84: features, state enabled, no TS, operand readable, and
`rip + ilen` below `2^AW`. That a sum of exactly `2^AW` does not complete is the model's reading of R14: log 9. -/
def Obligations.CompletesExactlyUnderThePremises : Prop :=
  ∀ (i : Instr) (s : State), Completes i s ↔ ∃ t, exec i s = .next t

/-- No form is refused but where `rip + ilen` would leave the address space (R14, R58; log 9). -/
def Obligations.RefusedOnlyAtTheTop : Prop :=
  ∀ (i : Instr) (s : State) (r : Refusal), exec i s = .refused r →
    r = .ripWraps ∧ 2 ^ Config.aw s.mode64 ≤ s.rip.toNat + i.ilen

/-- The order of exceptions: `#UD`, then `#NM`, then the memory fault the oracle names (R74). -/
def Obligations.ExceptionPriority : Prop :=
  (∀ s : State, decode s.mode64 (fetchBytes s) = .invalidOpcode → step s = .fault .invalidOpcode) ∧
  ∀ (i : Instr) (s : State),
    (¬ (FeaturePresent i.vl s ∧ StateEnabled s) → exec i s = .fault .invalidOpcode) ∧
    (FeaturePresent i.vl s ∧ StateEnabled s → s.ts = true → exec i s = .fault .deviceNotAvailable) ∧
    (Admitted i.vl s → ∀ ea n e, dataAccess i.vl i.esz i.operands s = some (ea, n) →
      memFaultFor s.memFault ea.toNat n = some e → exec i s = .fault (.memory e))

/-- The writemask suppresses no fault: a fault of a form is raised under every other writemask too (R25, R72). -/
def Obligations.MaskSuppressesNoFault : Prop :=
  ∀ (i : Instr) (mask : Writemask) (s : State) (f : Fault), exec i s = .fault f →
    exec (withOperands i { i.operands with mask := mask }) s = .fault f

/-- The numbers of the six exceptions (R73). -/
def Obligations.ExceptionNumbers : Prop :=
  Fault.vector .invalidOpcode = 6 ∧ Fault.vector .deviceNotAvailable = 7 ∧
    Fault.vector (.memory .stackFault) = 12 ∧ Fault.vector (.memory .generalProtection) = 13 ∧
    (∀ code addr, Fault.vector (.memory (.pageFault code addr)) = 14) ∧
    Fault.vector (.memory .alignmentCheck) = 17

/-! ## What a form writes -/

/-- The 256-bit forms vshuff32x4y, vshuff64x2y, vshufi32x4y, vshufi64x2y complete under the premises; each element of the
low half is the selected one under the writemask, the high half is zero, `rip` moves past the instruction, nothing else
changes (R52, R54, R55, R56, R58; per form R59, R61, R63, R65). -/
def Obligations.Forms256WriteTheShuffle : Prop :=
  ∀ (i : Instr) (s : State), i.vl = 256 → Completes i s →
    ∃ t, exec i s = .next t ∧
      (∀ j, j < 256 / i.esz →
        elemAt i.esz (readZmm t i.operands.d) j =
          maskedElement s i.operands.mask j
            (selectedElement i.esz ((readZmm s i.operands.s1).extractLsb' 0 i.vl)
              (secondSource i.vl i.esz i.operands s) i.operands.imm8 j)
            (elemAt i.esz (readZmm s i.operands.d) j)) ∧
      (readZmm t i.operands.d).extractLsb' 256 256 = 0 ∧
      t.rip.toNat = s.rip.toNat + i.ilen ∧ ShuffleFrame i.operands s t

/-- The 512-bit forms vshuff32x4z, vshuff64x2z, vshufi32x4z, vshufi64x2z complete under the premises; each element is the
selected one under the writemask, `rip` moves past the instruction, nothing else changes (R53, R54, R56, R58; per form
R60, R62, R64, R66). -/
def Obligations.Forms512WriteTheShuffle : Prop :=
  ∀ (i : Instr) (s : State), i.vl = 512 → Completes i s →
    ∃ t, exec i s = .next t ∧
      (∀ j, j < 512 / i.esz →
        elemAt i.esz (readZmm t i.operands.d) j =
          maskedElement s i.operands.mask j
            (selectedElement i.esz ((readZmm s i.operands.s1).extractLsb' 0 i.vl)
              (secondSource i.vl i.esz i.operands s) i.operands.imm8 j)
            (elemAt i.esz (readZmm s i.operands.d) j)) ∧
      t.rip.toNat = s.rip.toNat + i.ilen ∧ ShuffleFrame i.operands s t

/-- Without a writemask, the lanes a 256-bit form writes: lane 0 from the first source, lane 1 from the second, two
lanes of zeros (R52, R55). -/
def Obligations.UnmaskedLanes256 : Prop :=
  ∀ (i : Instr) (s : State), i.vl = 256 → i.operands.mask = .none → Completes i s →
    ∃ t, exec i s = .next t ∧
      elemAt 128 (readZmm t i.operands.d) 0 =
        elemAt 128 (readZmm s i.operands.s1) (i.operands.imm8.extractLsb' 0 1).toNat ∧
      elemAt 128 (readZmm t i.operands.d) 1 =
        elemAt 128 (secondSource i.vl i.esz i.operands s) (i.operands.imm8.extractLsb' 1 1).toNat ∧
      elemAt 128 (readZmm t i.operands.d) 2 = 0 ∧ elemAt 128 (readZmm t i.operands.d) 3 = 0

/-- Without a writemask, the lanes a 512-bit form writes: lanes 0 and 1 from the first source, 2 and 3 from the second
(R53). -/
def Obligations.UnmaskedLanes512 : Prop :=
  ∀ (i : Instr) (s : State), i.vl = 512 → i.operands.mask = .none → Completes i s →
    ∃ t, exec i s = .next t ∧
      elemAt 128 (readZmm t i.operands.d) 0 =
        elemAt 128 (readZmm s i.operands.s1) (i.operands.imm8.extractLsb' 0 2).toNat ∧
      elemAt 128 (readZmm t i.operands.d) 1 =
        elemAt 128 (readZmm s i.operands.s1) (i.operands.imm8.extractLsb' 2 2).toNat ∧
      elemAt 128 (readZmm t i.operands.d) 2 =
        elemAt 128 (secondSource i.vl i.esz i.operands s) (i.operands.imm8.extractLsb' 4 2).toNat ∧
      elemAt 128 (readZmm t i.operands.d) 3 =
        elemAt 128 (secondSource i.vl i.esz i.operands s) (i.operands.imm8.extractLsb' 6 2).toNat

/-- Bits `MAXVL-1:VL` of the destination become zero whatever the writemask and the masking mode (R55). -/
def Obligations.UpperBitsOfTheDestinationAreZero : Prop :=
  ∀ (i : Instr) (s t : State), exec i s = .next t →
    ∀ b, i.vl ≤ b → (readZmm t i.operands.d).getLsbD b = false

/-- What a completed form leaves alone (R18): every other vector register, the opmasks, the general registers, the
flags, every byte of memory, the parameters; `rip` moves by `ilen`. No form stores to memory. -/
def Obligations.CompletedFormWritesOnlyDestinationAndRip : Prop :=
  ∀ (i : Instr) (s t : State), exec i s = .next t →
    t.rip = s.rip + BitVec.ofNat 64 i.ilen ∧ ShuffleFrame i.operands s t

/-- `Select2` and `Select4` give the lane the control names (R49, R50). -/
def Obligations.SelectTakesTheNamedLane : Prop :=
  (∀ (src : BitVec 256) (c : BitVec 1), select2 src c = elemAt 128 src c.toNat) ∧
    ∀ (src : BitVec 512) (c : BitVec 2), select4 src c = elemAt 128 src c.toNat

/-! ## Operands -/

/-- The size of the data read of each form (R20); a register second source reads no memory (R21). -/
def Obligations.OperandSizes : Prop :=
  ∀ (i : Instr) (s : State),
    match i.operands.src2 with
    | .reg _ => dataAccess i.vl i.esz i.operands s = none
    | .mem m false =>
      dataAccess i.vl i.esz i.operands s =
        some (effectiveAddress (if i.vl = 256 then 32 else 64) i.ilen m s, if i.vl = 256 then 32 else 64)
    | .mem m true =>
      dataAccess i.vl i.esz i.operands s =
        some (effectiveAddress (if i.esz = 32 then 4 else 8) i.ilen m s, if i.esz = 32 then 4 else 8)

/-- The value of operand 3 (R51): the register's low bits; the bytes in memory, little-endian (R22); or the broadcast
element in every element. Bytes below the top of the address space. -/
def Obligations.SecondSourceValue : Prop :=
  ∀ (i : Instr) (s : State),
    match i.operands.src2 with
    | .reg r => secondSource i.vl i.esz i.operands s = (readZmm s r).extractLsb' 0 i.vl
    | .mem m false =>
      ∀ a, a = (effectiveAddress (i.vl / 8) i.ilen m s).toNat → ∀ j, j < i.vl / 8 →
        a + j < 2 ^ Config.aw s.mode64 → elemAt 8 (secondSource i.vl i.esz i.operands s) j = s.mem.read (a + j)
    | .mem m true =>
      ∀ a, a = (effectiveAddress (i.esz / 8) i.ilen m s).toNat → ∀ j, j < i.vl / i.esz → ∀ b, b < i.esz / 8 →
        a + b < 2 ^ Config.aw s.mode64 →
        elemAt 8 (elemAt i.esz (secondSource i.vl i.esz i.operands s) j) b = s.mem.read (a + b)

/-- The effective address as a number (R43, R46): base, index times scale and signed displacement, modulo `2^AW`. -/
def Obligations.EffectiveAddressAsANumber : Prop :=
  ∀ (n ilen : Nat) (m : MemOperand) (s : State),
    let aw := Config.aw s.mode64
    let reg (r : BitVec 4) : Int := ((readGpr s r).toNat % 2 ^ aw : Nat)
    let idx (scale : BitVec 2) (r : BitVec 4) : Int := if r = 4 then 0 else reg r * 2 ^ scale.toNat
    ((effectiveAddress n ilen m s).toNat : Int) =
      (match m with
        | .base b disp => reg b + dispInt n disp
        | .disp32 d => (if s.mode64 then (s.rip.toNat : Int) + ilen else 0) + d.toInt
        | .sib scale r b disp => reg b + idx scale r + dispInt n disp
        | .sibNoBase scale r d => idx scale r + d.toInt) % 2 ^ aw

/-! ## What a result does not depend on -/

/-- With no writemask or with zeroing-masking the old destination is not read (R54). -/
def Obligations.OldDestinationUnreadWithoutMerging : Prop :=
  ∀ (i : Instr) (s : State) (v : ZmmWord), (i.operands.mask = .none ∨ ∃ k, i.operands.mask = .zeroing k) →
    i.operands.d ≠ i.operands.s1 → i.operands.src2 ≠ .reg i.operands.d →
    exec i (writeZmm i.operands.d v s) = exec i s

/-- Opmask bits `KW-1:KL` have no effect (R12, R54). -/
def Obligations.OpmaskBitsAboveTheElementsUnread : Prop :=
  ∀ (i : Instr) (s t : State) (k' : Vector (BitVec Config.kw) 8),
    (∀ (r : BitVec 3) (j : Nat), j < i.vl / i.esz →
      (readK { s with k := k' } r).getLsbD j = (readK s r).getLsbD j) →
    exec i s = .next t → exec i { s with k := k' } = .next { t with k := k' }

/-- Bits `imm8[7:2]` of a 256-bit form have no effect (R42, R52). -/
def Obligations.ImmediateBitsAbove1UnreadAt256 : Prop :=
  ∀ (i : Instr) (imm : BitVec 8) (s : State), i.vl = 256 →
    imm.extractLsb' 0 2 = i.operands.imm8.extractLsb' 0 2 →
    exec (withOperands i { i.operands with imm8 := imm }) s = exec i s

/-- With a broadcast operand the selector bits of the second source have no effect: `imm8[1]` at 256 bits, `imm8[7:4]` at
512 bits (R51; corner cases of R59 to R66). -/
def Obligations.BroadcastMakesUpperSelectorsIdle : Prop :=
  ∀ (i : Instr) (m : MemOperand) (imm : BitVec 8) (s : State), i.operands.src2 = .mem m true →
    (i.vl = 256 → imm.extractLsb' 0 1 = i.operands.imm8.extractLsb' 0 1 →
      exec (withOperands i { i.operands with imm8 := imm }) s = exec i s) ∧
    (i.vl = 512 → imm.extractLsb' 0 4 = i.operands.imm8.extractLsb' 0 4 →
      exec (withOperands i { i.operands with imm8 := imm }) s = exec i s)

/-- A 256-bit form does not read bits 511:256 of any vector register (R51, R52). -/
def Obligations.UpperHalvesOfSourcesUnreadAt256 : Prop :=
  ∀ (i : Instr) (s t : State) (z' : Vector ZmmWord 32), i.vl = 256 →
    (∀ r : BitVec 5, (readZmm { s with zmm := z' } r).extractLsb' 0 256 = (readZmm s r).extractLsb' 0 256) →
    exec i s = .next t →
    ∃ t', exec i { s with zmm := z' } = .next t' ∧ readZmm t' i.operands.d = readZmm t i.operands.d

/-- No byte of memory outside the operand has any effect on a form (R20, R21). What an operand reads beyond the top of the
address space the spec does not say; there it may depend on all of memory (log 8), which is then kept as it is. -/
def Obligations.OnlyTheOperandsBytesAreRead : Prop :=
  ∀ (i : Instr) (s t : State) (m' : Memory),
    (∀ ea n, dataAccess i.vl i.esz i.operands s = some (ea, n) →
      (∀ a, ea.toNat ≤ a → a < ea.toNat + n → m'.read a = s.mem.read a) ∧
        (2 ^ Config.aw s.mode64 < ea.toNat + n → m' = s.mem)) →
    exec i s = .next t → exec i { s with mem := m' } = .next { t with mem := m' }

/-! ## Relations between forms -/

/-- The F and the I mnemonic of each pair compute the same function (R57). -/
def Obligations.FloatAndIntegerFormsAgree : Prop :=
  ∀ (o : ShufOperands) (s : State),
    exec (.vshuff32x4y o) s = exec (.vshufi32x4y o) s ∧ exec (.vshuff32x4z o) s = exec (.vshufi32x4z o) s ∧
    exec (.vshuff64x2y o) s = exec (.vshufi64x2y o) s ∧ exec (.vshuff64x2z o) s = exec (.vshufi64x2z o) s

/-- With no writemask and no broadcast, the 32-bit and the 64-bit mnemonics of equal length do the same (R57). -/
def Obligations.ElementSizesAgreeWithoutMaskAndBroadcast : Prop :=
  ∀ (o : ShufOperands) (s : State), o.mask = .none → (∀ m, o.src2 ≠ .mem m true) →
    exec (.vshuff32x4y o) s = exec (.vshuff64x2y o) s ∧ exec (.vshuff32x4z o) s = exec (.vshuff64x2z o) s

/-- `VSHUFF32x4 zmm, zmm, zmm, 1BH` on one register reverses its lanes; run twice it restores the register and leaves
every other vector register as it was (R56, R86). -/
def Obligations.LaneReversalTwiceIsTheIdentity : Prop :=
  ∀ (r : BitVec 5) (s : State), Admitted 512 s → s.rip.toNat + 14 < 2 ^ Config.aw s.mode64 →
    ∃ t u, exec (.vshuff32x4z ⟨r, r, .reg r, .none, 0x1B⟩) s = .next t ∧
      exec (.vshuff32x4z ⟨r, r, .reg r, .none, 0x1B⟩) t = .next u ∧
      (∀ n, n < 4 → elemAt 128 (readZmm t r) n = elemAt 128 (readZmm s r) (3 - n)) ∧
      u.zmm = s.zmm ∧ u.rip.toNat = s.rip.toNat + 14

/-- Each intrinsic with register operands is what its mnemonic writes: unmasked, merging and zeroing (R48). -/
def Obligations.IntrinsicsAreTheInstructions : Prop :=
  ∀ (d s1 r : BitVec 5) (k : BitVec 3) (imm : BitVec 8) (s : State),
    let old := readZmm s d
    let a := readZmm s s1
    let b := readZmm s r
    let k8 := (readK s k).extractLsb' 0 8
    let k16 := (readK s k).extractLsb' 0 16
    LeavesInDestination (.vshufi32x4z ⟨d, s1, .reg r, .none, imm⟩) s (mm512_shuffle_i32x4 a b imm) ∧
    LeavesInDestination (.vshufi32x4z ⟨d, s1, .reg r, .merging k, imm⟩) s (mm512_mask_shuffle_i32x4 old k16 a b imm) ∧
    LeavesInDestination (.vshufi32x4z ⟨d, s1, .reg r, .zeroing k, imm⟩) s (mm512_maskz_shuffle_i32x4 k16 a b imm) ∧
    LeavesInDestination (.vshufi32x4y ⟨d, s1, .reg r, .none, imm⟩) s
      (mm256_shuffle_i32x4 (a.extractLsb' 0 256) (b.extractLsb' 0 256) imm) ∧
    LeavesInDestination (.vshufi32x4y ⟨d, s1, .reg r, .merging k, imm⟩) s
      (mm256_mask_shuffle_i32x4 (old.extractLsb' 0 256) k8 (a.extractLsb' 0 256) (b.extractLsb' 0 256) imm) ∧
    LeavesInDestination (.vshufi32x4y ⟨d, s1, .reg r, .zeroing k, imm⟩) s
      (mm256_maskz_shuffle_i32x4 k8 (a.extractLsb' 0 256) (b.extractLsb' 0 256) imm) ∧
    LeavesInDestination (.vshuff32x4z ⟨d, s1, .reg r, .none, imm⟩) s (mm512_shuffle_f32x4 a b imm) ∧
    LeavesInDestination (.vshuff32x4z ⟨d, s1, .reg r, .merging k, imm⟩) s (mm512_mask_shuffle_f32x4 old k16 a b imm) ∧
    LeavesInDestination (.vshuff32x4z ⟨d, s1, .reg r, .zeroing k, imm⟩) s (mm512_maskz_shuffle_f32x4 k16 a b imm) ∧
    LeavesInDestination (.vshufi64x2z ⟨d, s1, .reg r, .none, imm⟩) s (mm512_shuffle_i64x2 a b imm) ∧
    LeavesInDestination (.vshufi64x2z ⟨d, s1, .reg r, .merging k, imm⟩) s (mm512_mask_shuffle_i64x2 old k8 a b imm) ∧
    LeavesInDestination (.vshufi64x2z ⟨d, s1, .reg r, .zeroing k, imm⟩) s (mm512_maskz_shuffle_i64x2 k8 a b imm) ∧
    LeavesInDestination (.vshuff64x2z ⟨d, s1, .reg r, .none, imm⟩) s (mm512_shuffle_f64x2 a b imm) ∧
    LeavesInDestination (.vshuff64x2z ⟨d, s1, .reg r, .merging k, imm⟩) s (mm512_mask_shuffle_f64x2 old k8 a b imm) ∧
    LeavesInDestination (.vshuff64x2z ⟨d, s1, .reg r, .zeroing k, imm⟩) s (mm512_maskz_shuffle_f64x2 k8 a b imm)

/-! ## Memory -/

/-- `MemWrite` of bytes at rising addresses: each byte written reads back, every other byte reads as before, and the
canonical form is kept (R9; the canonical form is the model's own). -/
def Obligations.MemoryReadsWhatWasWritten : Prop :=
  ∀ (m : Memory) (a : Nat) (bytes : List Byte), m.wf = true → a + bytes.length ≤ 2 ^ 64 →
    (m.writeBytes a bytes).wf = true ∧
      ∀ b, (m.writeBytes a bytes).read b =
        if a ≤ b ∧ b < a + bytes.length then bytes.getD (b - a) 0 else m.read b

/-! ## What an exception records -/

/-- The error codes (R68, R71, R72): none for `#UD` and `#NM`, 0 for `#SS`, `#GP` and `#AC`, the fault code for `#PF`.
The width of a code is the model's choice: log 17. -/
def Obligations.ExceptionErrorCodes : Prop :=
  Fault.errorCode .invalidOpcode = none ∧ Fault.errorCode .deviceNotAvailable = none ∧
    Fault.errorCode (.memory .stackFault) = some 0 ∧ Fault.errorCode (.memory .generalProtection) = some 0 ∧
    Fault.errorCode (.memory .alignmentCheck) = some 0 ∧
    ∀ code addr, Fault.errorCode (.memory (.pageFault code addr)) = some code
end

