-- ==== Sys2Proof/Laws/Decode.lean ====
section
/-! SUPPORT. The decoder said once (what it means that it answers an instruction), and the fields of each byte the encoder
writes. -/

namespace Sys2Proof

/-! ## The fields of the encoded bytes -/

theorem p0_fields (r x b r' : BitVec 1) :
    let p : Byte := (~~~r) ++ (~~~x) ++ (~~~b) ++ (~~~r') ++ (0 : BitVec 2) ++ (3 : BitVec 2)
    ~~~ p.extractLsb' 7 1 = r ∧ ~~~ p.extractLsb' 6 1 = x ∧ ~~~ p.extractLsb' 5 1 = b ∧ ~~~ p.extractLsb' 4 1 = r' ∧
      p.extractLsb' 2 2 = 0 ∧ p.extractLsb' 0 2 = 3 := by
  revert r x b r'; decide

theorem p1_fields (w : BitVec 1) (v : BitVec 4) :
    let p : Byte := w ++ (~~~v) ++ (1 : BitVec 1) ++ (1 : BitVec 2)
    p.extractLsb' 7 1 = w ∧ ~~~ p.extractLsb' 3 4 = v ∧ p.extractLsb' 2 1 = 1 ∧ p.extractLsb' 0 2 = 1 := by
  revert w v; decide

theorem p2_fields (z : BitVec 1) (ll : BitVec 2) (b v' : BitVec 1) (aaa : BitVec 3) :
    let p : Byte := z ++ ll ++ b ++ (~~~v') ++ aaa
    p.extractLsb' 7 1 = z ∧ p.extractLsb' 5 2 = ll ∧ p.extractLsb' 4 1 = b ∧ ~~~ p.extractLsb' 3 1 = v' ∧
      p.extractLsb' 0 3 = aaa := by
  revert z ll b v' aaa; decide +kernel

theorem modrm_fields (mod : BitVec 2) (reg rm : BitVec 3) :
    let p : Byte := mod ++ reg ++ rm
    p.extractLsb' 6 2 = mod ∧ p.extractLsb' 3 3 = reg ∧ p.extractLsb' 0 3 = rm := by
  revert mod reg rm; decide +kernel

theorem sib_fields (scale : BitVec 2) (index base : BitVec 3) :
    (sibByte scale index base).extractLsb' 6 2 = scale ∧ (sibByte scale index base).extractLsb' 3 3 = index ∧
      (sibByte scale index base).extractLsb' 0 3 = base :=
  modrm_fields scale index base

/-- A 4-bit register number is its top bit before its low three bits. -/
theorem reg4_split (r : BitVec 4) : (r.extractLsb' 3 1 ++ regLow r : BitVec 4) = r := by
  revert r; decide

/-- A 5-bit register number is its two top bits before its low three bits. -/
theorem reg5_split (r : BitVec 5) : (r.extractLsb' 4 1 ++ r.extractLsb' 3 1 ++ r.extractLsb' 0 3 : BitVec 5) = r := by
  revert r; decide

/-- A 5-bit register number is its top bit before its low four bits. -/
theorem reg5_split4 (r : BitVec 5) : (r.extractLsb' 4 1 ++ r.extractLsb' 0 4 : BitVec 5) = r := by
  revert r; decide

theorem le32_le32Bytes (d : BitVec 32) :
    le32 (d.extractLsb' 0 8) (d.extractLsb' 8 8) (d.extractLsb' 16 8) (d.extractLsb' 24 8) = d := by
  apply BitVec.eq_of_getLsbD_eq
  intro i hi
  simp only [le32, BitVec.getLsbD_append, BitVec.getLsbD_extractLsb']
  by_cases h0 : i < 8
  · simp [h0]
  · by_cases h1 : i < 16
    · have e1 : i - 8 < 8 := by omega
      simp [h0, e1, Nat.add_sub_cancel' (show 8 ≤ i by omega)]
    · have e1 : ¬ i - 8 < 8 := by omega
      by_cases h2 : i < 24
      · have e2 : i - 8 - 8 < 8 := by omega
        have e3 : 16 + (i - 8 - 8) = i := by omega
        simp [h0, e1, e2, e3]
      · have e2 : ¬ i - 8 - 8 < 8 := by omega
        have e3 : 24 + (i - 8 - 8 - 8) = i := by omega
        have e4 : i - 8 - 8 - 8 < 8 := by omega
        simp [h0, e1, e2, e3, e4]

theorem takeDisp32_le32Bytes (d : BitVec 32) (rest : List Byte) :
    takeDisp32 (le32Bytes d ++ rest) = some (d, rest) := by
  simp [le32Bytes, takeDisp32, le32_le32Bytes]

theorem takeDisp_bytes (disp : Disp) (rest : List Byte) :
    takeDisp disp.mod (disp.bytes ++ rest) = some (disp, rest) := by
  cases disp with
  | none => simp [takeDisp, Disp.mod, Disp.bytes]
  | disp8 d => simp [takeDisp, Disp.mod, Disp.bytes]
  | disp32 d => simp [takeDisp, Disp.mod, Disp.bytes, takeDisp32_le32Bytes]

/-! ## Inversion -/

/-- The decoder answers an instruction exactly when the header passes, operand 3 and `imm8` are there, the encoding is
neither reserved nor invalid, and the instruction is the one the fields name. -/
theorem decode_instr_iff (mode64 : Bool) (e p0 p1 p2 op modrm : Byte) (tail : List Byte) (i : Instr)
    (rest : List Byte) :
    decode mode64 (e :: p0 :: p1 :: p2 :: op :: modrm :: tail) = .instr i rest ↔
      headerRefusal mode64 e p0 p1 p2 op = none ∧
      ∃ src2 imm8 mask,
        takeSrc2 (~~~ p0.extractLsb' 6 1) (~~~ p0.extractLsb' 5 1) (p2.extractLsb' 4 1 == 1) modrm tail =
          some (src2, imm8 :: rest) ∧
        ¬ (modrm.extractLsb' 6 2 = 3 ∧ (p2.extractLsb' 4 1 == 1) = true) ∧
        maskOf (p2.extractLsb' 7 1) (p2.extractLsb' 0 3) = some mask ∧
        headerInvalid p0 p1 p2 = false ∧
        i = formOf op (p1.extractLsb' 7 1) (p2.extractLsb' 5 2)
          ⟨(~~~ p0.extractLsb' 4 1) ++ (~~~ p0.extractLsb' 7 1) ++ modrm.extractLsb' 3 3,
            (~~~ p2.extractLsb' 3 1) ++ (~~~ p1.extractLsb' 3 4), src2, mask, imm8⟩ := by
  cases hh : headerRefusal mode64 e p0 p1 p2 op with
  | some r => simp [decode, hh]
  | none =>
    cases ht : takeSrc2 (~~~ p0.extractLsb' 6 1) (~~~ p0.extractLsb' 5 1) (p2.extractLsb' 4 1 == 1) modrm tail with
    | none => simp only [decode, hh, ht]; simp
    | some q =>
      obtain ⟨src2, bytes⟩ := q
      cases bytes with
      | nil => simp only [decode, hh, ht]; simp
      | cons imm8 more =>
        by_cases hb : modrm.extractLsb' 6 2 = 3 ∧ (p2.extractLsb' 4 1 == 1) = true
        · simp only [decode, hh, ht, if_pos hb]
          constructor
          · intro h; cases h
          · rintro ⟨-, _, _, _, -, h, -⟩
            exact absurd hb h
        · cases hm : maskOf (p2.extractLsb' 7 1) (p2.extractLsb' 0 3) with
          | none => simp only [decode, hh, ht, hb, hm]; simp
          | some mask =>
            by_cases hi : headerInvalid p0 p1 p2 = true
            · simp only [decode, hh, ht, hb, hm, hi]; simp
            · simp only [decode, hh, ht, hb, hm, hi]
              constructor
              · intro h
                injection h with h1 h2
                subst h1 h2
                exact ⟨trivial, src2, imm8, mask, rfl, not_false, rfl, by simp, rfl⟩
              · rintro ⟨-, _, _, _, h1, -, h2, -, rfl⟩
                simp only [Option.some.injEq, Prod.mk.injEq, List.cons.injEq] at h1 h2
                obtain ⟨rfl, rfl, rfl⟩ := h1
                subst h2
                rfl

/-- A byte string that decodes has at least six bytes. -/
theorem decode_instr_cons {mode64 : Bool} {bytes : List Byte} {i : Instr} {rest : List Byte}
    (h : decode mode64 bytes = .instr i rest) :
    ∃ e p0 p1 p2 op modrm tail, bytes = e :: p0 :: p1 :: p2 :: op :: modrm :: tail := by
  match bytes, h with
  | e :: p0 :: p1 :: p2 :: op :: modrm :: tail, _ => exact ⟨e, p0, p1, p2, op, modrm, tail, rfl⟩

/-! ## The parts of an encoding, there and back -/

/-- The addressing fields and tail bytes of a well-formed memory operand are read back as that operand. -/
theorem takeMem_fields (m : MemOperand) (bc : Bool) (rest : List Byte) (h : m.wellFormed true = true) :
    let f := (Src2.mem m bc).fields
    f.mod ≠ 3 ∧ takeMem f.x f.b f.mod f.rm (f.tail ++ rest) = some (m, rest) := by
  have fin : ∀ disp : Disp, disp.mod ≠ 3 := by intro d; cases d <;> simp [Disp.mod]
  have nz : ∀ disp : Disp, disp.mod = 0 ↔ disp = .none := by intro d; cases d <;> simp [Disp.mod]
  cases m with
  | base b disp =>
    simp only [MemOperand.wellFormed, gprOk, Bool.true_or, Bool.true_and, Bool.and_eq_true, bne_iff_ne, Bool.not_eq_true',
      Bool.and_eq_false_iff, beq_eq_false_iff_ne, ne_eq] at h
    refine ⟨fin disp, ?_⟩
    simp only [Src2.fields, takeMem, h.1, if_false, nz]
    have h2 : ¬ (disp = .none ∧ regLow b = 5) := by
      rintro ⟨h3, h4⟩; rcases h.2 with h5 | h5
      · exact h5 h3
      · exact h5 h4
    simp only [h2, if_false, takeDisp_bytes, reg4_split]
  | disp32 d =>
    refine ⟨by simp [Src2.fields], ?_⟩
    simp [Src2.fields, takeMem, takeDisp32_le32Bytes]
  | sib scale index b disp =>
    simp only [MemOperand.wellFormed, gprOk, Bool.true_or, Bool.true_and, Bool.not_eq_true',
      Bool.and_eq_false_iff, beq_eq_false_iff_ne, ne_eq] at h
    refine ⟨fin disp, ?_⟩
    obtain ⟨f1, f2, f3⟩ := sib_fields scale (regLow index) (regLow b)
    have h2 : ¬ (disp = .none ∧ regLow b = 5) := by
      rintro ⟨h3, h4⟩; rcases h with h5 | h5
      · exact h5 h3
      · exact h5 h4
    simp only [Src2.fields, takeMem, if_true, List.cons_append, f1, f2, f3, nz, h2, if_false, takeDisp_bytes, reg4_split]
  | sibNoBase scale index d =>
    refine ⟨by simp [Src2.fields], ?_⟩
    obtain ⟨f1, f2, f3⟩ := sib_fields scale (regLow index) 5
    simp only [Src2.fields, takeMem, if_true, List.cons_append, f1, f2, f3, takeDisp32_le32Bytes, and_self, reg4_split]

/-- An operand of 32-bit modes is one of 64-bit mode. -/
theorem memOperand_wellFormed_true {mode64 : Bool} {m : MemOperand} (h : m.wellFormed mode64 = true) : m.wellFormed true = true := by
  cases m <;> simp_all [MemOperand.wellFormed, gprOk]

/-- The fields and tail bytes of operand 3 are read back as that operand. -/
theorem takeSrc2_fields (src : Src2) (modrm : Byte) (rest : List Byte) (h : src.wellFormed true = true)
    (h6 : modrm.extractLsb' 6 2 = src.fields.mod) (h0 : modrm.extractLsb' 0 3 = src.fields.rm) :
    takeSrc2 src.fields.x src.fields.b (src.bcastBit == 1) modrm (src.fields.tail ++ rest) = some (src, rest) := by
  cases src with
  | reg r => simp only [takeSrc2, h6, h0]; simp [Src2.fields, reg5_split]
  | mem m bc =>
    obtain ⟨h1, h2⟩ := takeMem_fields m bc rest h
    simp only [takeSrc2, h6, h0, h1, if_false, h2]
    cases bc <;> rfl

/-- The bits `z` and `aaa` of a writemask are read back as that writemask. -/
theorem maskOf_bits (m : Writemask) (h : m.wellFormed = true) : maskOf m.zBit m.aaa = some m := by
  cases m <;> simp_all [Writemask.wellFormed, maskOf, Writemask.zBit, Writemask.aaa]

/-- The encoding of an instruction that is well formed in 32-bit modes has the bits that R46 asks for. -/
theorem headerBits_mode32 (o : ShufOperands) (w : BitVec 1) (ll : BitVec 2) (h : o.wellFormed false = true) :
    (p0Byte o).extractLsb' 4 4 = 15 ∧ (p1Byte w o).extractLsb' 6 1 = 1 ∧ (p2Byte ll o).extractLsb' 3 1 = 1 := by
  simp only [ShufOperands.wellFormed, vregOk, Bool.false_or, Bool.and_eq_true, decide_eq_true_eq] at h
  obtain ⟨⟨⟨hd, hs⟩, hm⟩, -⟩ := h
  have lo5 : ∀ r : BitVec 5, r.toNat < 8 → r.extractLsb' 4 1 = 0 ∧ r.extractLsb' 3 1 = 0 := by decide
  have lo4 : ∀ r : BitVec 4, r.toNat < 8 → r.extractLsb' 3 1 = 0 := by decide
  have hx : o.src2.fields.x = 0 ∧ o.src2.fields.b = 0 := by
    revert hm
    generalize o.src2 = src
    intro hm
    rcases src with r | ⟨⟨b, dd⟩ | dd | ⟨sc, ix, b, dd⟩ | ⟨sc, ix, dd⟩, bc⟩
    · simp only [Src2.wellFormed, vregOk, Bool.false_or, decide_eq_true_eq] at hm; exact lo5 r hm
    · simp only [Src2.wellFormed, MemOperand.wellFormed, gprOk, Bool.false_or, decide_eq_true_eq, Bool.and_eq_true] at hm
      exact ⟨rfl, lo4 b hm.1.1⟩
    · exact ⟨rfl, rfl⟩
    · simp only [Src2.wellFormed, MemOperand.wellFormed, gprOk, Bool.false_or, decide_eq_true_eq, Bool.and_eq_true] at hm
      exact ⟨lo4 ix hm.1.2, lo4 b hm.1.1⟩
    · simp only [Src2.wellFormed, MemOperand.wellFormed, gprOk, Bool.false_or, decide_eq_true_eq] at hm
      exact ⟨lo4 ix hm, rfl⟩
  refine ⟨?_, ?_, ?_⟩
  · unfold p0Byte; rw [hx.1, hx.2, (lo5 _ hd).1, (lo5 _ hd).2]; decide
  · have : ∀ (w : BitVec 1) (r : BitVec 5), r.toNat < 8 → (w ++ (~~~ r.extractLsb' 0 4) ++ (1 : BitVec 1) ++ (1 : BitVec 2) : Byte).extractLsb' 6 1 = 1 := by decide
    exact this w _ hs
  · have h2 := (p2_fields o.mask.zBit ll o.src2.bcastBit (o.s1.extractLsb' 4 1) o.mask.aaa).2.2.2.1
    have h3 : (~~~ (p2Byte ll o).extractLsb' 3 1) = 0 := by rw [← (lo5 _ hs).1]; exact h2
    revert h3; generalize (p2Byte ll o).extractLsb' 3 1 = q; revert q; decide

/-- What a `disp32` takes from the bytes. -/
theorem takeDisp32_some {l : List Byte} {d rest} (h : takeDisp32 l = some (d, rest)) : 4 + rest.length = l.length ∧ rest = l.drop 4 := by
  match l, h with
  | b0 :: b1 :: b2 :: b3 :: r, h => 
    simp only [takeDisp32, Option.some.injEq, Prod.mk.injEq] at h
    obtain ⟨-, rfl⟩ := h
    simp; omega

/-- What a displacement takes from the bytes, by `mod`. -/
theorem takeDisp_some {mod : BitVec 2} {l : List Byte} {d : Disp} {rest : List Byte} (h : takeDisp mod l = some (d, rest)) (h3 : mod ≠ 3) :
    d.mod = mod ∧ d.length = (if mod = 0 then 0 else if mod = 1 then 1 else 4) ∧ d.length + rest.length = l.length ∧ rest = l.drop d.length := by
  unfold takeDisp at h
  split_ifs at h with h0 h1
  · simp only [Option.some.injEq, Prod.mk.injEq] at h
    obtain ⟨rfl, rfl⟩ := h
    simp [h0, Disp.mod, Disp.length]
  · cases l with
    | nil => simp at h
    | cons a l =>
      simp only [Option.some.injEq, Prod.mk.injEq] at h
      obtain ⟨rfl, rfl⟩ := h
      simp [h1, Disp.mod, Disp.length]; omega
  · cases hd : takeDisp32 l with
    | none => simp [hd] at h
    | some q =>
      obtain ⟨d', r'⟩ := q
      simp only [hd, Option.some.injEq, Prod.mk.injEq] at h
      obtain ⟨rfl, rfl⟩ := h
      have : mod = 2 := by revert h0 h1 h3; revert mod; decide
      have := takeDisp32_some hd
      subst mod
      simp [Disp.mod, Disp.length]; exact this

/-- What a memory operand takes from the bytes, and that it is well formed. -/
theorem takeMem_some {x b : BitVec 1} {mod : BitVec 2} {rm : BitVec 3} {l : List Byte} {m : MemOperand} {rest : List Byte}
    (h : takeMem x b mod rm l = some (m, rest)) (h3 : mod ≠ 3) (bc : Bool) :
    (m.wellFormed true = true ∧ (x = 0 → b = 0 → m.wellFormed false = true)) ∧
    (Src2.mem m bc).tailLength = (if rm = 4 then 1 else 0) + (if mod = 1 then 1 else if mod = 2 ∨ (mod = 0 ∧ (rm = 5 ∨ (rm = 4 ∧ (l.headD 0).extractLsb' 0 3 = 5))) then 4 else 0) ∧
    (Src2.mem m bc).tailLength + rest.length = l.length ∧ rest = l.drop (Src2.mem m bc).tailLength := by
  have low : ∀ (b : BitVec 1) (rm : BitVec 3), regLow (b ++ rm : BitVec 4) = rm := by decide
  have lt8 : ∀ rm : BitVec 3, ((0 : BitVec 1) ++ rm : BitVec 4).toNat < 8 := by decide
  have m02 : mod = 0 ∨ mod = 1 ∨ mod = 2 := (by decide : ∀ q : BitVec 2, q ≠ 3 → q = 0 ∨ q = 1 ∨ q = 2) mod h3
  have wf0 : ∀ disp : Disp, disp.mod ≠ 0 → disp ≠ .none := by intro d; cases d <;> simp [Disp.mod]
  unfold takeMem at h
  split_ifs at h with h4 h05
  · cases l with
    | nil => simp at h
    | cons sib l =>
      simp only at h
      split_ifs at h with hs
      · cases hd : takeDisp32 l with
        | none => simp [hd] at h
        | some q =>
          obtain ⟨d, r⟩ := q
          simp only [hd, Option.some.injEq, Prod.mk.injEq] at h
          obtain ⟨rfl, rfl⟩ := h
          obtain ⟨e1, e2⟩ := takeDisp32_some hd
          refine ⟨⟨rfl, ?_⟩, ?_, ?_, ?_⟩
          · rintro rfl -; simp [MemOperand.wellFormed, gprOk]; have := lt8 (sib.extractLsb' 3 3); simpa using this
          · simp [h4, hs, Src2.tailLength]
          · simp [Src2.tailLength]; omega
          · simp [Src2.tailLength, e2]
      · cases hd : takeDisp mod l with
        | none => simp [hd] at h
        | some q =>
          obtain ⟨d, r⟩ := q
          simp only [hd, Option.some.injEq, Prod.mk.injEq] at h
          obtain ⟨rfl, rfl⟩ := h
          obtain ⟨e0, e1, e2, e3⟩ := takeDisp_some hd h3
          have wf : (!(d == .none && sib.extractLsb' 0 3 == 5)) = true := by
            by_cases hn : d = .none
            · subst hn
              have : mod = 0 := e0.symm
              have : ¬ sib.extractLsb' 0 3 = 5 := fun hh => hs ⟨this, hh⟩
              simpa using this
            · simp [hn]
          refine ⟨⟨?_, ?_⟩, ?_, ?_, ?_⟩
          · simp only [MemOperand.wellFormed, low, wf, gprOk]; rfl
          · rintro rfl rfl; simp only [MemOperand.wellFormed, low, wf, gprOk, lt8]; rfl
          · simp only [Src2.tailLength, e1, h4, List.headD_cons]
            have h4' : (4 : BitVec 3) ≠ 5 := by decide
            rcases m02 with rfl | rfl | rfl <;> simp_all
          · simp [Src2.tailLength]; omega
          · simp only [Src2.tailLength]; rw [Nat.add_comm, List.drop_succ_cons, ← e3]
  · cases hd : takeDisp32 l with
    | none => simp [hd] at h
    | some q =>
      obtain ⟨d, r⟩ := q
      simp only [hd, Option.some.injEq, Prod.mk.injEq] at h
      obtain ⟨rfl, rfl⟩ := h
      obtain ⟨e1, e2⟩ := takeDisp32_some hd
      refine ⟨⟨rfl, fun _ _ => rfl⟩, ?_, ?_, ?_⟩
      · simp [h05, Src2.tailLength]
      · simp [Src2.tailLength]; omega
      · simp [Src2.tailLength, e2]
  · cases hd : takeDisp mod l with
    | none => simp [hd] at h
    | some q =>
      obtain ⟨d, r⟩ := q
      simp only [hd, Option.some.injEq, Prod.mk.injEq] at h
      obtain ⟨rfl, rfl⟩ := h
      obtain ⟨e0, e1, e2, e3⟩ := takeDisp_some hd h3
      have wf : (!(d == .none && rm == 5)) = true := by
        by_cases hn : d = .none
        · subst hn
          have : mod = 0 := e0.symm
          have : ¬ rm = 5 := fun hh => h05 ⟨this, hh⟩
          simpa using this
        · simp [hn]
      have wf4 : (rm != 4) = true := by simpa using h4
      refine ⟨⟨?_, ?_⟩, ?_, ?_, ?_⟩
      · simp only [MemOperand.wellFormed, low, wf, wf4, gprOk]; rfl
      · rintro rfl rfl; simp only [MemOperand.wellFormed, low, wf, wf4, gprOk, lt8]; rfl
      · simp only [Src2.tailLength, e1, h4]
        rcases m02 with rfl | rfl | rfl <;> simp_all
      · simp [Src2.tailLength]; omega
      · simp only [Src2.tailLength]; exact e3

/-- The form chosen does not change the operands. -/
theorem formOf_operands (op : Byte) (w : BitVec 1) (ll : BitVec 2) (o : ShufOperands) :
    (formOf op w ll o).operands = o := by
  unfold formOf; split_ifs <;> rfl

/-- What a writemask says of `z` and `aaa`. -/
theorem maskOf_some {z : BitVec 1} {aaa : BitVec 3} {m : Writemask} (h : maskOf z aaa = some m) :
    m.wellFormed = true ∧ (match (generalizing := false) m with
      | .none => aaa = 0 ∧ z = 0
      | .merging k => k = aaa ∧ k ≠ 0 ∧ z = 0
      | .zeroing k => k = aaa ∧ k ≠ 0 ∧ z = 1) := by
  have hz : z = 0 ∨ z = 1 := (by decide : ∀ q : BitVec 1, q = 0 ∨ q = 1) z
  unfold maskOf at h
  split_ifs at h with h1 h2 h3 <;> injection h with h <;> subst h
  · exact ⟨rfl, h1, h2⟩
  · exact ⟨by simpa [Writemask.wellFormed] using h1, rfl, h1, h3⟩
  · exact ⟨by simpa [Writemask.wellFormed] using h1, rfl, h1, hz.resolve_left h3⟩

/-- What operand 3 takes from the bytes, that it is well formed, and which of its kinds it is. -/
theorem takeSrc2_some {x b : BitVec 1} {bc : Bool} {modrm : Byte} {l : List Byte} {src : Src2} {rest : List Byte}
    (h : takeSrc2 x b bc modrm l = some (src, rest)) :
    (src.wellFormed true = true ∧ (x = 0 → b = 0 → src.wellFormed false = true)) ∧
    src.tailLength = (if modrm.extractLsb' 6 2 ≠ 3 ∧ modrm.extractLsb' 0 3 = 4 then 1 else 0) + (if modrm.extractLsb' 6 2 = 1 then 1 else if modrm.extractLsb' 6 2 = 2 ∨ (modrm.extractLsb' 6 2 = 0 ∧ (modrm.extractLsb' 0 3 = 5 ∨ (modrm.extractLsb' 0 3 = 4 ∧ (l.headD 0).extractLsb' 0 3 = 5))) then 4 else 0) ∧
    src.tailLength + rest.length = l.length ∧ rest = l.drop src.tailLength ∧
    (match src with
     | .reg r => modrm.extractLsb' 6 2 = 3 ∧ r = x ++ b ++ modrm.extractLsb' 0 3
     | .mem _ bc' => modrm.extractLsb' 6 2 ≠ 3 ∧ bc' = bc) := by
  unfold takeSrc2 at h
  simp only at h
  have lt8 : ∀ rm : BitVec 3, ((0 : BitVec 1) ++ (0 : BitVec 1) ++ rm : BitVec 5).toNat < 8 := by decide
  split_ifs at h with h3
  · simp only [Option.some.injEq, Prod.mk.injEq] at h
    obtain ⟨rfl, rfl⟩ := h
    rw [h3]
    refine ⟨⟨rfl, ?_⟩, ?_, ?_, ?_, ?_⟩
    · rintro rfl rfl; simp only [Src2.wellFormed, vregOk, lt8]; rfl
    · simp [Src2.tailLength]
    · simp [Src2.tailLength]
    · rfl
    · exact ⟨rfl, rfl⟩
  · cases hm : takeMem x b (modrm.extractLsb' 6 2) (modrm.extractLsb' 0 3) l with
    | none => simp [hm] at h
    | some q =>
      obtain ⟨m, r⟩ := q
      simp only [hm, Option.some.injEq, Prod.mk.injEq] at h
      obtain ⟨rfl, rfl⟩ := h
      obtain ⟨a1, a2, a3, a4⟩ := takeMem_some hm h3 bc
      refine ⟨a1, ?_, a3, a4, h3, rfl⟩
      rw [a2]; simp only [h3, ne_eq, not_false_eq_true, true_and]

/-- What a header that is not refused has. -/
theorem headerRefusal_none {e p0 p1 p2 op : Byte} {mode64 : Bool} (h : headerRefusal mode64 e p0 p1 p2 op = none) :
   e = 0x62 ∧ (mode64 = true ∨ (p0.extractLsb' 4 4 = 15 ∧ p1.extractLsb' 6 1 = 1 ∧ p2.extractLsb' 3 1 = 1)) ∧ p0.extractLsb' 0 2 = 3 ∧ p1.extractLsb' 0 2 = 1 ∧ (op = 0x23 ∨ op = 0x43) := by
  unfold headerRefusal at h
  split_ifs at h with h1 h2 h3
  simp only [ne_eq, not_not] at h1
  simp only [not_or, not_and, ne_eq, not_not] at h3
  refine ⟨h1, ?_, h3.1, h3.2.1, ?_⟩
  · cases mode64 <;> simp_all
  · by_cases ho : op = 0x23
    · exact .inl ho
    · exact .inr (h3.2.2 ho)

/-! ## How many bytes an encoding takes -/

open Machine

/-- The four bytes of a little-endian field. -/
theorem le32_bytes (b0 b1 b2 b3 : Byte) :
    (le32 b0 b1 b2 b3).extractLsb' 0 8 = b0 ∧ (le32 b0 b1 b2 b3).extractLsb' 8 8 = b1 ∧
      (le32 b0 b1 b2 b3).extractLsb' 16 8 = b2 ∧ (le32 b0 b1 b2 b3).extractLsb' 24 8 = b3 := by
  refine ⟨?_, ?_, ?_, ?_⟩ <;> apply BitVec.eq_of_getLsbD_eq <;> intro i hi <;>
    simp only [le32, BitVec.getLsbD_extractLsb', BitVec.getLsbD_append, hi, decide_true, Bool.true_and]
  · rw [if_pos (by omega), Nat.zero_add]
  · rw [if_neg (by omega), if_pos (by omega), Nat.add_sub_cancel_left]
  · rw [if_neg (by omega), if_neg (by omega), if_pos (by omega), show 16 + i - 8 - 8 = i by omega]
  · rw [if_neg (by omega), if_neg (by omega), if_neg (by omega), show 24 + i - 8 - 8 - 8 = i by omega]

/-- Four bytes are enough for a `disp32`. -/
theorem takeDisp32_complete {l : List Byte} (h : 4 ≤ l.length) : ∃ d rest, takeDisp32 l = some (d, rest) := by
  match l, h with
  | _ :: _ :: _ :: _ :: _, _ => exact ⟨_, _, rfl⟩

/-- As many bytes as `mod` announces are enough for a displacement. -/
theorem takeDisp_complete {mod : BitVec 2} {l : List Byte}
    (h : (if mod = 0 then 0 else if mod = 1 then 1 else 4) ≤ l.length) :
    ∃ d rest, takeDisp mod l = some (d, rest) := by
  unfold takeDisp
  split_ifs at h ⊢
  · exact ⟨_, _, rfl⟩
  · cases l with
    | nil => simp at h
    | cons a l => exact ⟨_, _, rfl⟩
  · obtain ⟨d, r, e⟩ := takeDisp32_complete h
    rw [e]; exact ⟨_, _, rfl⟩

/-- No encoding is longer than twelve bytes (R44). -/
theorem encodedLength_le (modrm : Byte) (tail : List Byte) : encodedLength modrm tail ≤ 12 := by
  unfold encodedLength; simp only; split_ifs <;> omega

/-- Where operand 3 was read, the bytes after it make up for `encodedLength` with the byte of `imm8` (R44). -/
theorem encodedLength_of_some {x b : BitVec 1} {bc : Bool} {modrm : Byte} {tail : List Byte} {src : Src2}
    {rest : List Byte} (e : takeSrc2 x b bc modrm tail = some (src, rest)) : encodedLength modrm tail + rest.length = 7 + tail.length := by
  obtain ⟨-, a2, a3, -, -⟩ := takeSrc2_some e
  have hl : encodedLength modrm tail = 6 + src.tailLength + 1 := by rw [a2]; unfold encodedLength; simp only; omega
  omega

/-- As many bytes as ModRM and SIB announce are enough for operand 3 and `imm8` (R44). -/
theorem takeSrc2_complete (x b : BitVec 1) (bc : Bool) (modrm : Byte) (tail : List Byte)
    (h : encodedLength modrm tail ≤ 6 + tail.length) :
    ∃ src imm rest, takeSrc2 x b bc modrm tail = some (src, imm :: rest) := by
  have main : ∃ src rest, takeSrc2 x b bc modrm tail = some (src, rest) := by
    unfold takeSrc2
    simp only
    split_ifs with h3
    · exact ⟨_, _, rfl⟩
    · have : ∃ m rest, takeMem x b (modrm.extractLsb' 6 2) (modrm.extractLsb' 0 3) tail = some (m, rest) := by
        unfold encodedLength at h
        revert h h3
        generalize modrm.extractLsb' 6 2 = mod
        generalize modrm.extractLsb' 0 3 = rm
        intro h h3
        have m02 : mod = 0 ∨ mod = 1 ∨ mod = 2 := (by decide : ∀ q : BitVec 2, q ≠ 3 → q = 0 ∨ q = 1 ∨ q = 2) mod h3
        unfold takeMem
        split_ifs with h4 h05
        · subst h4
          cases tail with
          | nil => rcases m02 with rfl | rfl | rfl <;> simp at h
          | cons sib l =>
            simp only [List.headD_cons, List.length_cons] at h ⊢
            split_ifs with h05
            · obtain ⟨d, r, e⟩ := takeDisp32_complete (l := l) (by rcases m02 with rfl | rfl | rfl <;> simp_all; omega)
              rw [e]; exact ⟨_, _, rfl⟩
            · obtain ⟨d, r, e⟩ := takeDisp_complete (mod := mod) (l := l)
                (by rcases m02 with rfl | rfl | rfl <;> simp_all <;> omega)
              rw [e]; exact ⟨_, _, rfl⟩
        · obtain ⟨d, r, e⟩ := takeDisp32_complete (l := tail) (by rcases h05 with ⟨rfl, rfl⟩; simp at h; omega)
          rw [e]; exact ⟨_, _, rfl⟩
        · obtain ⟨d, r, e⟩ := takeDisp_complete (mod := mod) (l := tail)
            (by rcases m02 with rfl | rfl | rfl <;> simp_all <;> omega)
          rw [e]; exact ⟨_, _, rfl⟩
      obtain ⟨m, r, e⟩ := this
      rw [e]; exact ⟨_, _, rfl⟩
  obtain ⟨src, rest, e⟩ := main
  obtain ⟨-, a2, a3, -, -⟩ := takeSrc2_some e
  have hl : encodedLength modrm tail = 6 + src.tailLength + 1 := by rw [a2]; unfold encodedLength; simp only; omega
  cases rest with
  | nil => simp only [List.length_nil] at a3; omega
  | cons imm rest => exact ⟨src, imm, rest, e⟩

/-- What a header must have to pass: the fixed fields, and in 32-bit modes the subset of R46. -/
theorem headerRefusal_eq_none {mode64 : Bool} {e p0 p1 p2 op : Byte} (hg : GroupHeader e p0 p1 op)
    (hm : mode64 = false → Mode32Admits p0 p1 p2) : headerRefusal mode64 e p0 p1 p2 op = none := by
  obtain ⟨rfl, h0, h1, ho⟩ := hg
  unfold headerRefusal
  rw [h0, h1]
  cases mode64
  · obtain ⟨a, b, c⟩ := hm rfl
    rw [a, b, c]; rcases ho with rfl | rfl <;> rfl
  · rcases ho with rfl | rfl <;> rfl

end Sys2Proof
end

