-- ==== Sys2Proof/Laws/Elems.lean ====
section
/-! SUPPORT. What `ofElems` holds, bit by bit and element by element, and the shared operations built on it. -/

namespace Sys2Proof.Machine

/-- Bit `i` of `ofElems` is bit `i % w` of element `i / w`, below the elements that were put in. -/
theorem ofElems_getLsbD (n w : Nat) (f : Nat → BitVec w) (hw : 0 < w) (count i : Nat) :
    (ofElems n w f count).getLsbD i =
      (decide (i < n) && decide (i < w * count) && (f (i / w)).getLsbD (i % w)) := by
  induction count with
  | zero => simp [ofElems]
  | succ c ih =>
    simp only [ofElems, BitVec.getLsbD_or, ih, BitVec.getLsbD_shiftLeft, BitVec.getLsbD_setWidth]
    by_cases hin : i < n
    · by_cases hlo : i < w * c
      · have : i < w * (c + 1) := by rw [Nat.mul_succ]; omega
        simp [hin, hlo, this]
      · by_cases hhi : i < w * (c + 1)
        · have hdiv : i / w = c := by
            apply Nat.div_eq_of_lt_le
            · rw [Nat.mul_comm]; omega
            · rw [Nat.mul_comm]; exact hhi
          have hmod : i % w = i - w * c := by
            rw [Nat.mod_def, hdiv]
          have h2 : i - w * c < n := by omega
          simp [hin, hlo, hhi, hdiv, hmod, h2]
        · have : w ≤ i - w * c := by rw [Nat.mul_succ] at hhi; omega
          simp [hin, hlo, hhi, BitVec.getLsbD_of_ge (f c) _ this]
    · simp [hin]

theorem elemAt_getLsbD {n : Nat} (w : Nat) (v : BitVec n) (j i : Nat) :
    (elemAt w v j).getLsbD i = (decide (i < w) && v.getLsbD (w * j + i)) := by
  simp [elemAt]

/-- Element `j` of `ofElems` is what was put there. -/
theorem elemAt_ofElems (n w : Nat) (f : Nat → BitVec w) (count j : Nat) (hj : j < count) (hfit : w * count ≤ n) :
    elemAt w (ofElems n w f count) j = f j := by
  rcases Nat.eq_zero_or_pos w with rfl | hw
  · exact Subsingleton.elim _ _
  · apply BitVec.eq_of_getLsbD_eq
    intro i hi
    have hlt : w * j + i < w * count := by
      calc w * j + i < w * j + w := by omega
        _ = w * (j + 1) := by rw [Nat.mul_succ]
        _ ≤ w * count := Nat.mul_le_mul_left w hj
    have hn : w * j + i < n := by omega
    have hd : (w * j + i) / w = j := by
      rw [Nat.mul_add_div hw, Nat.div_eq_of_lt hi, Nat.add_zero]
    have hm : (w * j + i) % w = i := by
      rw [Nat.mul_add_mod, Nat.mod_eq_of_lt hi]
    rw [elemAt_getLsbD, ofElems_getLsbD n w f hw]
    simp [hi, hlt, hn, hd, hm]

/-- Two values whose bits all lie in elements are equal when their elements are. -/
theorem eq_of_elemAt {n : Nat} (w : Nat) (hw : 0 < w) (u v : BitVec n) (count : Nat) (hfit : n ≤ w * count)
    (h : ∀ j, j < count → elemAt w u j = elemAt w v j) : u = v := by
  apply BitVec.eq_of_getLsbD_eq
  intro i hi
  have hj : i / w < count := Nat.div_lt_of_lt_mul (by omega)
  have hb := congrArg (fun x => x.getLsbD (i % w)) (h (i / w) hj)
  simp only [elemAt_getLsbD, Nat.mod_lt i hw, Nat.div_add_mod, decide_true, Bool.true_and] at hb
  exact hb

/-- An element of the low part of a value is that element of the value. -/
theorem elemAt_extractLow {n m : Nat} (w : Nat) (v : BitVec n) (j : Nat) (h : w * (j + 1) ≤ m) :
    elemAt w (v.extractLsb' 0 m) j = elemAt w v j := by
  apply BitVec.eq_of_getLsbD_eq
  intro i hi
  have hm : w * j + i < m := by rw [Nat.mul_succ] at h; omega
  rw [elemAt_getLsbD, elemAt_getLsbD]
  simp [hm]

/-- An element of a widened value is that element of the value. -/
theorem elemAt_setWidth {n m : Nat} (w : Nat) (v : BitVec n) (j : Nat) (h : w * (j + 1) ≤ m) :
    elemAt w (v.setWidth m) j = elemAt w v j := by
  apply BitVec.eq_of_getLsbD_eq
  intro i hi
  have hm : w * j + i < m := by rw [Nat.mul_succ] at h; omega
  rw [elemAt_getLsbD, elemAt_getLsbD]
  simp [hm]

/-- Every element of a broadcast is the broadcast element (R51). -/
theorem elemAt_broadcast (vl esz : Nat) (e : BitVec esz) (j : Nat) (hj : j < vl / esz) :
    elemAt esz (broadcast vl esz e) j = e :=
  elemAt_ofElems vl esz _ _ j hj (Nat.mul_div_le vl esz)

/-- Element `j` of a masked value (R54). -/
theorem elemAt_applyMask (vl esz : Nat) (takes : Nat → Bool) (zeroes : Bool) (tmp old : BitVec vl) (j : Nat)
    (hj : j < vl / esz) :
    elemAt esz (applyMask vl esz takes zeroes tmp old) j =
      if takes j then elemAt esz tmp j else if zeroes then 0 else elemAt esz old j :=
  elemAt_ofElems vl esz _ _ j hj (Nat.mul_div_le vl esz)

/-- Byte `m` of a memory read is the byte at `addr + m` (R22). -/
theorem elemAt_memRead (w : Nat) (addr : Word64) (s : State) (m : Nat) (hm : m < w / 8) :
    elemAt 8 (memRead w addr s) m = memByte s (addr.toNat + m) :=
  elemAt_ofElems w 8 _ _ m hm (Nat.mul_div_le w 8)

/-- An element of an element, as bits of the value. -/
theorem elemAt_elemAt {n w : Nat} (W : Nat) (v : BitVec n) (c p : Nat) (h : w * (p + 1) ≤ W) :
    elemAt w (elemAt W v c) p = v.extractLsb' (W * c + w * p) w := by
  apply BitVec.eq_of_getLsbD_eq
  intro i hi
  have : w * p + i < W := by rw [Nat.mul_succ] at h; omega
  rw [elemAt_getLsbD, elemAt_getLsbD]
  simp [this, Nat.add_assoc]

/-- The lanes of `TMP` of a 256-bit form (R52). -/
theorem shuffle256_lanes (s1 t : BitVec 256) (imm : BitVec 8) :
    elemAt 128 (shuffle256 s1 t imm) 0 = select2 s1 (imm.extractLsb' 0 1) ∧
    elemAt 128 (shuffle256 s1 t imm) 1 = select2 t (imm.extractLsb' 1 1) := by
  unfold shuffle256
  generalize select2 s1 _ = a
  generalize select2 t _ = b
  have app : ∀ i, (b ++ a : BitVec 256).getLsbD i = if i < 128 then a.getLsbD i else b.getLsbD (i - 128) :=
    fun i => by exact BitVec.getLsbD_append (x := b) (y := a)
  constructor <;> (apply BitVec.eq_of_getLsbD_eq; intro i hi; rw [elemAt_getLsbD, app]; simp [hi])

/-- The lanes of `TMP` of a 512-bit form (R53). -/
theorem shuffle512_lanes (s1 t : BitVec 512) (imm : BitVec 8) :
    elemAt 128 (shuffle512 s1 t imm) 0 = select4 s1 (imm.extractLsb' 0 2) ∧
    elemAt 128 (shuffle512 s1 t imm) 1 = select4 s1 (imm.extractLsb' 2 2) ∧
    elemAt 128 (shuffle512 s1 t imm) 2 = select4 t (imm.extractLsb' 4 2) ∧
    elemAt 128 (shuffle512 s1 t imm) 3 = select4 t (imm.extractLsb' 6 2) := by
  unfold shuffle512
  generalize select4 s1 (imm.extractLsb' 0 2) = a
  generalize select4 s1 (imm.extractLsb' 2 2) = b
  generalize select4 t (imm.extractLsb' 4 2) = c
  generalize select4 t (imm.extractLsb' 6 2) = d
  have app : ∀ i, (d ++ c ++ b ++ a : BitVec 512).getLsbD i = if i < 128 then a.getLsbD i else
      if i - 128 < 128 then b.getLsbD (i - 128) else if i - 128 - 128 < 128 then c.getLsbD (i - 128 - 128) else
        d.getLsbD (i - 128 - 128 - 128) := by
    intro i
    refine (BitVec.getLsbD_append (x := d ++ c ++ b) (y := a)).trans ?_
    rw [BitVec.getLsbD_append (x := d ++ c) (y := b), BitVec.getLsbD_append (x := d) (y := c)]
  have key : ∀ n v, (∀ i, i < 128 → (if 128 * n + i < 128 then a.getLsbD (128 * n + i) else
      if 128 * n + i - 128 < 128 then b.getLsbD (128 * n + i - 128) else if 128 * n + i - 128 - 128 < 128 then c.getLsbD (128 * n + i - 128 - 128) else
        d.getLsbD (128 * n + i - 128 - 128 - 128)) = BitVec.getLsbD v i) → elemAt 128 (d ++ c ++ b ++ a : BitVec 512) n = v := by
    intro n v h
    apply BitVec.eq_of_getLsbD_eq; intro i hi; rw [elemAt_getLsbD, app, h i hi]; simp [hi]
  refine ⟨key 0 a ?_, key 1 b ?_, key 2 c ?_, key 3 d ?_⟩ <;> intro i hi
  · rw [if_pos (by omega), show 128 * 0 + i = i by omega]
  · rw [if_neg (by omega), if_pos (by omega), show 128 * 1 + i - 128 = i by omega]
  · rw [if_neg (by omega), if_neg (by omega), if_pos (by omega), show 128 * 2 + i - 128 - 128 = i by omega]
  · rw [if_neg (by omega), if_neg (by omega), if_neg (by omega), show 128 * 3 + i - 128 - 128 - 128 = i by omega]

/-- Without a writemask `NEW` is `TMP` (R54). -/
theorem applyMask_none (vl esz : Nat) (he : 0 < esz) (hd : esz * (vl / esz) = vl) (s : State) (z : Bool) (tmp old : BitVec vl) :
    applyMask vl esz (maskTakes s .none) z tmp old = tmp := by
  refine eq_of_elemAt esz he _ _ (vl / esz) (by omega) ?_
  intro j hj
  rw [elemAt_applyMask _ _ _ _ _ _ _ hj]; rfl

end Sys2Proof.Machine
end

