-- ==== Sys2Proof/Laws/State.lean ====
section
/-! SUPPORT. One lemma per field of State for each update of the machine, so that no proof unfolds a record update. -/

namespace Sys2Proof.Machine

section writeZmm
variable (r : BitVec 5) (v : ZmmWord) (s : State)

@[simp] theorem writeZmm_zmm : (writeZmm r v s).zmm = s.zmm.set r.toNat v r.isLt := rfl
@[simp] theorem writeZmm_k : (writeZmm r v s).k = s.k := rfl
@[simp] theorem writeZmm_gpr : (writeZmm r v s).gpr = s.gpr := rfl
@[simp] theorem writeZmm_rip : (writeZmm r v s).rip = s.rip := rfl
@[simp] theorem writeZmm_rflags : (writeZmm r v s).rflags = s.rflags := rfl
@[simp] theorem writeZmm_mxcsr : (writeZmm r v s).mxcsr = s.mxcsr := rfl
@[simp] theorem writeZmm_mem : (writeZmm r v s).mem = s.mem := rfl
@[simp] theorem writeZmm_mode64 : (writeZmm r v s).mode64 = s.mode64 := rfl
@[simp] theorem writeZmm_hasAVX512F : (writeZmm r v s).hasAVX512F = s.hasAVX512F := rfl
@[simp] theorem writeZmm_hasAVX512VL : (writeZmm r v s).hasAVX512VL = s.hasAVX512VL := rfl
@[simp] theorem writeZmm_stateEnabled : (writeZmm r v s).stateEnabled = s.stateEnabled := rfl
@[simp] theorem writeZmm_ts : (writeZmm r v s).ts = s.ts := rfl
@[simp] theorem writeZmm_memFault : (writeZmm r v s).memFault = s.memFault := rfl

@[simp] theorem readZmm_writeZmm_same : readZmm (writeZmm r v s) r = v := by
  simp [readZmm, writeZmm]

theorem readZmm_writeZmm (r' : BitVec 5) :
    readZmm (writeZmm r v s) r' = if r' = r then v else readZmm s r' := by
  by_cases h : r' = r
  · subst h; simp
  · have hne : r.toNat ≠ r'.toNat := fun e => h (BitVec.eq_of_toNat_eq e.symm)
    simp [readZmm, writeZmm, h, hne]

end writeZmm

section writeBack
variable (vl esz : Nat) (sel : LaneSelection vl) (o : ShufOperands) (s : State)

@[simp] theorem writeBack_zmm : (writeBack vl esz sel o s).zmm =
    s.zmm.set o.d.toNat (newDest vl esz sel o s) o.d.isLt := rfl
@[simp] theorem writeBack_k : (writeBack vl esz sel o s).k = s.k := rfl
@[simp] theorem writeBack_gpr : (writeBack vl esz sel o s).gpr = s.gpr := rfl
@[simp] theorem writeBack_rip : (writeBack vl esz sel o s).rip = s.rip := rfl
@[simp] theorem writeBack_rflags : (writeBack vl esz sel o s).rflags = s.rflags := rfl
@[simp] theorem writeBack_mxcsr : (writeBack vl esz sel o s).mxcsr = s.mxcsr := rfl
@[simp] theorem writeBack_mem : (writeBack vl esz sel o s).mem = s.mem := rfl
@[simp] theorem writeBack_mode64 : (writeBack vl esz sel o s).mode64 = s.mode64 := rfl
@[simp] theorem writeBack_hasAVX512F : (writeBack vl esz sel o s).hasAVX512F = s.hasAVX512F := rfl
@[simp] theorem writeBack_hasAVX512VL : (writeBack vl esz sel o s).hasAVX512VL = s.hasAVX512VL := rfl
@[simp] theorem writeBack_stateEnabled : (writeBack vl esz sel o s).stateEnabled = s.stateEnabled := rfl
@[simp] theorem writeBack_ts : (writeBack vl esz sel o s).ts = s.ts := rfl
@[simp] theorem writeBack_memFault : (writeBack vl esz sel o s).memFault = s.memFault := rfl

theorem readZmm_writeBack (r : BitVec 5) :
    readZmm (writeBack vl esz sel o s) r = if r = o.d then newDest vl esz sel o s else readZmm s r :=
  readZmm_writeZmm o.d (newDest vl esz sel o s) s r

@[simp] theorem readZmm_writeBack_same : readZmm (writeBack vl esz sel o s) o.d = newDest vl esz sel o s := by
  simp [readZmm_writeBack]

end writeBack

section storeAtRip
variable (bytes : List Byte) (s : State)

@[simp] theorem storeAtRip_zmm : (storeAtRip bytes s).zmm = s.zmm := rfl
@[simp] theorem storeAtRip_k : (storeAtRip bytes s).k = s.k := rfl
@[simp] theorem storeAtRip_gpr : (storeAtRip bytes s).gpr = s.gpr := rfl
@[simp] theorem storeAtRip_rip : (storeAtRip bytes s).rip = s.rip := rfl
@[simp] theorem storeAtRip_rflags : (storeAtRip bytes s).rflags = s.rflags := rfl
@[simp] theorem storeAtRip_mxcsr : (storeAtRip bytes s).mxcsr = s.mxcsr := rfl
@[simp] theorem storeAtRip_mem : (storeAtRip bytes s).mem =
    s.mem.writeBytes s.rip.toNat (bytes.take (2 ^ Config.aw s.mode64 - s.rip.toNat)) := rfl
@[simp] theorem storeAtRip_mode64 : (storeAtRip bytes s).mode64 = s.mode64 := rfl
@[simp] theorem storeAtRip_hasAVX512F : (storeAtRip bytes s).hasAVX512F = s.hasAVX512F := rfl
@[simp] theorem storeAtRip_hasAVX512VL : (storeAtRip bytes s).hasAVX512VL = s.hasAVX512VL := rfl
@[simp] theorem storeAtRip_stateEnabled : (storeAtRip bytes s).stateEnabled = s.stateEnabled := rfl
@[simp] theorem storeAtRip_ts : (storeAtRip bytes s).ts = s.ts := rfl
@[simp] theorem storeAtRip_memFault : (storeAtRip bytes s).memFault = s.memFault := rfl

end storeAtRip

section withRip
variable (a : Word64) (s : State)

@[simp] theorem withRip_zmm : ({ s with rip := a } : State).zmm = s.zmm := rfl
@[simp] theorem withRip_k : ({ s with rip := a } : State).k = s.k := rfl
@[simp] theorem withRip_gpr : ({ s with rip := a } : State).gpr = s.gpr := rfl
@[simp] theorem withRip_rip : ({ s with rip := a } : State).rip = a := rfl
@[simp] theorem withRip_rflags : ({ s with rip := a } : State).rflags = s.rflags := rfl
@[simp] theorem withRip_mxcsr : ({ s with rip := a } : State).mxcsr = s.mxcsr := rfl
@[simp] theorem withRip_mem : ({ s with rip := a } : State).mem = s.mem := rfl
@[simp] theorem withRip_mode64 : ({ s with rip := a } : State).mode64 = s.mode64 := rfl
@[simp] theorem withRip_hasAVX512F : ({ s with rip := a } : State).hasAVX512F = s.hasAVX512F := rfl
@[simp] theorem withRip_hasAVX512VL : ({ s with rip := a } : State).hasAVX512VL = s.hasAVX512VL := rfl
@[simp] theorem withRip_stateEnabled : ({ s with rip := a } : State).stateEnabled = s.stateEnabled := rfl
@[simp] theorem withRip_ts : ({ s with rip := a } : State).ts = s.ts := rfl
@[simp] theorem withRip_memFault : ({ s with rip := a } : State).memFault = s.memFault := rfl

@[simp] theorem readZmm_withRip (r : BitVec 5) : readZmm { s with rip := a } r = readZmm s r := rfl
@[simp] theorem readK_withRip (r : BitVec 3) : readK { s with rip := a } r = readK s r := rfl
@[simp] theorem readGpr_withRip (r : BitVec 4) : readGpr { s with rip := a } r = readGpr s r := rfl

end withRip

end Sys2Proof.Machine
end

