-- ==== Sys2Proof/Laws/Exec.lean ====
section
/-! SUPPORT. Everything a form can do, said once: when it completes and to what, when it faults, when it is refused. -/

namespace Sys2Proof.Machine

/-- Every instruction is the shared step at its own parameters. -/
theorem exec_eq_execForm (i : Instr) (s : State) :
    exec i s = execForm i.vl i.esz (laneSelection i) i.operands s := by
  cases i <;> rfl

theorem advanceRip_next_iff (ilen : Nat) (s t : State) :
    advanceRip ilen s = .next t ↔
      s.rip.toNat + ilen < 2 ^ Config.aw s.mode64 ∧ t = { s with rip := s.rip + BitVec.ofNat 64 ilen } := by
  unfold advanceRip
  split
  · constructor
    · intro h; exact ⟨‹_›, by injection h with h; exact h.symm⟩
    · rintro ⟨-, rfl⟩; rfl
  · constructor
    · intro h; cases h
    · rintro ⟨h, -⟩; contradiction

theorem admissionFault_eq_none_iff (vl : Nat) (hvl : vl = 256 ∨ vl = 512) (s : State) :
    admissionFault vl s = none ↔ Admitted vl s := by
  rcases hvl with rfl | rfl <;>
    cases h1 : s.hasAVX512F <;> cases h2 : s.hasAVX512VL <;> cases h3 : s.stateEnabled <;> cases h4 : s.ts <;>
    simp [admissionFault, featurePresent, Admitted, FeaturePresent, StateEnabled, NoTS, h1, h2, h3, h4]

theorem operandFault_eq_none_iff (vl esz : Nat) (o : ShufOperands) (s : State) :
    operandFault vl esz o s = none ↔ OperandReadable vl esz o s := by
  unfold operandFault OperandReadable
  cases h : dataAccess vl esz o s with
  | none => simp
  | some p => obtain ⟨ea, n⟩ := p; simp

theorem instr_vl_eq (i : Instr) : i.vl = 256 ∨ i.vl = 512 := by cases i <;> simp [Instr.vl]

theorem instr_esz_eq (i : Instr) : i.esz = 32 ∨ i.esz = 64 := by cases i <;> simp [Instr.esz]

/-- The elements of a form fill its vector length. -/
theorem instr_elems_fill (i : Instr) : 0 < i.esz ∧ i.esz * (i.vl / i.esz) = i.vl := by
  cases i <;> simp [Instr.esz, Instr.vl]

/-- The state a form leaves when it completes: the write-back, and `rip` past the instruction. -/
def completedState (i : Instr) (s : State) : State :=
  { writeBack i.vl i.esz (laneSelection i) i.operands s with rip := s.rip + BitVec.ofNat 64 i.operands.ilen }

/-- The result in the destination register and the old value in every other one. -/
theorem readZmm_completedState (i : Instr) (s : State) (r : BitVec 5) :
    readZmm (completedState i s) r =
      if r = i.operands.d then newDest i.vl i.esz (laneSelection i) i.operands s else readZmm s r :=
  readZmm_writeBack i.vl i.esz (laneSelection i) i.operands s r

/-- Everything but the vector registers and `rip` is as before. -/
theorem completedState_sameBesideVectors (i : Instr) (s : State) : SameBesideVectors s (completedState i s) :=
  ⟨rfl, rfl, ⟨rfl, rfl⟩, fun _ => rfl, rfl, rfl, rfl, rfl, rfl, rfl, rfl⟩

theorem completedState_frame (i : Instr) (s : State) : ShuffleFrame i.operands s (completedState i s) :=
  ⟨fun r hr => by rw [readZmm_completedState, if_neg hr], completedState_sameBesideVectors i s⟩

/-- A form completes exactly under the launch premises, and to the completed state. -/
theorem exec_next_iff (i : Instr) (s t : State) :
    exec i s = .next t ↔ Completes i s ∧ t = completedState i s := by
  rw [exec_eq_execForm]
  unfold execForm Completes
  rw [← admissionFault_eq_none_iff i.vl (instr_vl_eq i), ← operandFault_eq_none_iff]
  cases h1 : admissionFault i.vl s with
  | some f => simp [raise]
  | none =>
    cases h2 : operandFault i.vl i.esz i.operands s with
    | some f => simp [raise]
    | none => simp [advanceRip_next_iff, RipFits, completedState]

/-- Where a form faults: at admission, or at the read of its memory operand. -/
theorem exec_fault_iff (i : Instr) (s : State) (f : Fault) :
    exec i s = .fault f ↔
      admissionFault i.vl s = some f ∨
        (admissionFault i.vl s = none ∧ operandFault i.vl i.esz i.operands s = some f) := by
  rw [exec_eq_execForm]
  unfold execForm
  cases h1 : admissionFault i.vl s with
  | some g => simp [raise]
  | none =>
    cases h2 : operandFault i.vl i.esz i.operands s with
    | some g => simp [raise]
    | none =>
      simp only [advanceRip]
      split <;> simp

/-- A form is refused only where `rip + ilen` leaves the address space. -/
theorem exec_refused_iff (i : Instr) (s : State) (r : Refusal) :
    exec i s = .refused r ↔
      r = .ripWraps ∧ Admitted i.vl s ∧ OperandReadable i.vl i.esz i.operands s ∧ ¬ RipFits i.operands s := by
  rw [exec_eq_execForm]
  unfold execForm
  rw [← admissionFault_eq_none_iff i.vl (instr_vl_eq i), ← operandFault_eq_none_iff]
  cases h1 : admissionFault i.vl s with
  | some g => simp [raise]
  | none =>
    cases h2 : operandFault i.vl i.esz i.operands s with
    | some g => simp [raise]
    | none =>
      by_cases h : RipFits i.operands s
      · have := (advanceRip_next_iff i.operands.ilen (writeBack i.vl i.esz (laneSelection i) i.operands s) _).2 ⟨h, rfl⟩
        simp [this, h]
      · have : advanceRip i.operands.ilen (writeBack i.vl i.esz (laneSelection i) i.operands s) = .refused .ripWraps :=
          if_neg h
        simp [this, h, eq_comm]

end Sys2Proof.Machine
end

