-- ==== Sys2Proof/Laws/Memory.lean ====
section
/-! SUPPORT. Memory: reading after writing, and every operation keeps the canonical form. -/

namespace Sys2Proof.Machine

/-- A canonical memory lists nothing below its bound. -/
theorem Memory.read_below {lo : Nat} {m : Memory} (hm : Memory.wfFrom lo m = true) {a : Nat} (ha : a < lo) :
    Memory.read m a = Memory.unlisted := by
  induction m generalizing lo with
  | nil => rfl
  | cons c m ih =>
    obtain ⟨b, v⟩ := c
    simp only [Memory.wfFrom, Bool.and_eq_true, decide_eq_true_eq] at hm
    have hne : a ≠ b := by omega
    simp only [Memory.read, hne, if_false]
    exact ih hm.2 (by omega)

/-- A bound can be lowered. -/
theorem Memory.wfFrom_mono {lo lo' : Nat} {m : Memory} (hm : Memory.wfFrom lo m = true) (h : lo' ≤ lo) :
    Memory.wfFrom lo' m = true := by
  cases m with
  | nil => rfl
  | cons c m =>
    obtain ⟨b, v⟩ := c
    simp only [Memory.wfFrom, Bool.and_eq_true, decide_eq_true_eq] at hm ⊢
    exact ⟨⟨⟨by omega, hm.1.1.2⟩, hm.1.2⟩, hm.2⟩

/-- Writing keeps the canonical form from a bound on. -/
theorem Memory.write_wfFrom {lo a : Nat} {v : Byte} {m : Memory} (hm : Memory.wfFrom lo m = true) (hlo : lo ≤ a)
    (ha : a < 2 ^ 64) : Memory.wfFrom lo (Memory.write a v m) = true := by
  induction m generalizing lo with
  | nil =>
    by_cases hv : v = Memory.unlisted <;> simp [Memory.write, Memory.wfFrom, hv, hlo, -Nat.reducePow, ha]
  | cons c m ih =>
    obtain ⟨b, u⟩ := c
    have hm' := hm
    simp only [Memory.wfFrom, Bool.and_eq_true, decide_eq_true_eq] at hm
    obtain ⟨⟨⟨h1, h2⟩, h3⟩, h4⟩ := hm
    by_cases hab : a < b
    · by_cases hv : v = Memory.unlisted
      · simpa [Memory.write, hab, hv] using hm'
      · simp only [Memory.write, hab, hv, if_true, if_false, Memory.wfFrom, Bool.and_eq_true, decide_eq_true_eq]
        exact ⟨⟨⟨hlo, ha⟩, by simpa using hv⟩, ⟨⟨by omega, h2⟩, h3⟩, h4⟩
    · by_cases he : a = b
      · by_cases hv : v = Memory.unlisted
        · simp only [Memory.write, he, hv, if_true, lt_irrefl, if_false]
          exact Memory.wfFrom_mono h4 (by omega)
        · subst he
          simp only [Memory.write, hv, if_true, lt_irrefl, if_false, Memory.wfFrom, Bool.and_eq_true,
            decide_eq_true_eq]
          exact ⟨⟨⟨h1, h2⟩, by simpa using hv⟩, h4⟩
      · simp only [Memory.write, hab, he, if_false, Memory.wfFrom, Bool.and_eq_true, decide_eq_true_eq]
        exact ⟨⟨⟨h1, h2⟩, h3⟩, ih h4 (by omega)⟩

/-- Writing a byte keeps the canonical form. -/
theorem Memory.write_wf {a : Nat} {v : Byte} {m : Memory} (hm : m.wf = true) (ha : a < 2 ^ 64) :
    Memory.wf (Memory.write a v m) = true :=
  Memory.write_wfFrom hm (Nat.zero_le a) ha

/-- Writing bytes below `2^64` keeps the canonical form. -/
theorem Memory.writeBytes_wf {bytes : List Byte} {a : Nat} {m : Memory} (hm : m.wf = true)
    (ha : a + bytes.length ≤ 2 ^ 64) : Memory.wf (Memory.writeBytes m a bytes) = true := by
  induction bytes generalizing a m with
  | nil => exact hm
  | cons v vs ih =>
    simp only [List.length_cons] at ha
    exact ih (Memory.write_wf hm (by omega)) (by omega)

/-- Storing at `rip` keeps the canonical form. -/
theorem storeAtRip_wf {bytes : List Byte} {s : State} (hm : s.mem.wf = true)
    (hr : s.rip.toNat < 2 ^ Config.aw s.mode64) : (storeAtRip bytes s).mem.wf = true := by
  apply Memory.writeBytes_wf hm
  have haw : 2 ^ Config.aw s.mode64 ≤ 2 ^ 64 := by
    cases s.mode64 <;> simp [Config.aw]
  simp only [List.length_take]
  omega

/-- The memory after reset is canonical. -/
theorem reset_mem_wf : State.reset.mem.wf = true := rfl

/-- In a canonical memory a byte that is not below the bound reads as the write says. -/
theorem Memory.read_write_from {lo a b : Nat} {v : Byte} {m : Memory} (hm : Memory.wfFrom lo m = true) :
    Memory.read (Memory.write a v m) b = if b = a then v else Memory.read m b := by
  induction m generalizing lo with
  | nil =>
    by_cases hv : v = Memory.unlisted <;> by_cases hb : b = a <;> simp [Memory.write, Memory.read, hv, hb]
  | cons c m ih =>
    obtain ⟨c, u⟩ := c
    have hm' := hm
    simp only [Memory.wfFrom, Bool.and_eq_true, decide_eq_true_eq] at hm
    obtain ⟨-, h4⟩ := hm
    by_cases hac : a < c
    · by_cases hv : v = Memory.unlisted
      · by_cases hb : b = a
        · subst hb
          have hne : b ≠ c := by omega
          have := Memory.read_below h4 (show b < c + 1 by omega)
          simp [Memory.write, hac, hv, Memory.read, hne, this]
        · simp [Memory.write, hac, hv, hb]
      · simp [Memory.write, hac, hv, Memory.read]
    · by_cases he : a = c
      · subst he
        by_cases hv : v = Memory.unlisted
        · by_cases hb : b = a
          · subst hb
            have := Memory.read_below h4 (show b < b + 1 by omega)
            simp [Memory.write, hv, this]
          · simp [Memory.write, hv, Memory.read, hb]
        · by_cases hb : b = a <;> simp [Memory.write, hv, Memory.read, hb]
      · by_cases hb : b = c
        · have : b ≠ a := by omega
          simp [Memory.write, hac, he, Memory.read, hb, Ne.symm he]
        · simp [Memory.write, hac, he, Memory.read, hb, ih h4]

/-- Where memory holds a byte string from `rip` on, within the bytes a step looks at, the fetch begins with it. -/
theorem fetchBytes_eq_append (s : State) (l : List Byte) (hl : l.length ≤ fetchCount s)
    (hb : ∀ m, m < l.length → some (s.mem.read (s.rip.toNat + m)) = l[m]?) :
    ∃ rest, fetchBytes s = l ++ rest := by
  refine ⟨(fetchBytes s).drop l.length, ?_⟩
  have : (fetchBytes s).take l.length = l := by
    apply List.ext_getElem?
    intro m
    by_cases hm : m < l.length
    · rw [← hb m hm]
      have h2 : m < fetchCount s := by omega
      simp [fetchBytes, hm, h2]
    · simp [hm]
  conv_lhs => rw [← List.take_append_drop l.length (fetchBytes s), this]

/-- A step looks at the longest instruction's bytes, or at those that are left below the top. -/
theorem fetchBytes_length (s : State) :
    (fetchBytes s).length = min Config.maxILen (2 ^ Config.aw s.mode64 - s.rip.toNat) := by
  simp [fetchBytes, fetchCount]

end Sys2Proof.Machine
end

