-- ==== Sys2Proof/Laws/PerInstr.lean ====
section
/-! SUPPORT. The family EncodedLength: the encoding of every instruction has the length that R44 gives, one lemma per
constructor. -/

namespace Sys2Proof.Laws.EncodedLength

/-- The encoder writes `ilen` bytes (R44). -/
def Statement (i : Instr) : Prop := (encode i).length = i.ilen

/-- The bytes after ModRM of operand 3: SIB and displacement. -/
theorem fields_tail_length (src : Src2) : src.fields.tail.length = src.tailLength := by
  have hd : ∀ disp : Disp, disp.bytes.length = disp.length := by intro d; cases d <;> rfl
  rcases src with r | ⟨⟨b, dd⟩ | dd | ⟨sc, ix, b, dd⟩ | ⟨sc, ix, dd⟩, bc⟩ <;>
    simp [Src2.fields, Src2.tailLength, hd, le32Bytes, Nat.add_comm]

theorem of_any (i : Instr) : Statement i := by
  simp only [Statement, encode, List.length_cons, List.length_append, fields_tail_length, Instr.ilen, ShufOperands.ilen,
    List.length_nil]
  omega

theorem vshuff32x4y (o : ShufOperands) : Statement (.vshuff32x4y o) := of_any _
theorem vshuff32x4z (o : ShufOperands) : Statement (.vshuff32x4z o) := of_any _
theorem vshuff64x2y (o : ShufOperands) : Statement (.vshuff64x2y o) := of_any _
theorem vshuff64x2z (o : ShufOperands) : Statement (.vshuff64x2z o) := of_any _
theorem vshufi32x4y (o : ShufOperands) : Statement (.vshufi32x4y o) := of_any _
theorem vshufi32x4z (o : ShufOperands) : Statement (.vshufi32x4z o) := of_any _
theorem vshufi64x2y (o : ShufOperands) : Statement (.vshufi64x2y o) := of_any _
theorem vshufi64x2z (o : ShufOperands) : Statement (.vshufi64x2z o) := of_any _

end Sys2Proof.Laws.EncodedLength
end

