-- ==== Sys2Proof/Laws/Step.lean ====
section
/-! SUPPORT. Everything a step can do, and the induction over a run, said once. -/

namespace Sys2Proof.Machine

/-- A step that answers a next state ran a decoded instruction that completes. -/
theorem step_next_inv {s t : State} (h : step s = .next t) :
    ∃ i rest, decode s.mode64 (fetchBytes s) = .instr i rest ∧ Completes i s ∧ t = completedState i s := by
  unfold step at h
  cases hd : decode s.mode64 (fetchBytes s) with
  | instr i rest =>
    rw [hd] at h
    exact ⟨i, rest, rfl, (exec_next_iff i s t).1 h⟩
  | invalidOpcode => rw [hd] at h; cases h
  | refused r => rw [hd] at h; cases h

/-- A step that faults decoded an invalid encoding, or ran an instruction that faults. -/
theorem step_fault_inv {s : State} {f : Fault} (h : step s = .fault f) :
    (f = .invalidOpcode ∧ decode s.mode64 (fetchBytes s) = .invalidOpcode) ∨
      ∃ i rest, decode s.mode64 (fetchBytes s) = .instr i rest ∧ exec i s = .fault f := by
  unfold step at h
  cases hd : decode s.mode64 (fetchBytes s) with
  | instr i rest => rw [hd] at h; exact .inr ⟨i, rest, rfl, h⟩
  | invalidOpcode => rw [hd] at h; injection h with h; exact .inl ⟨h.symm, rfl⟩
  | refused r => rw [hd] at h; cases h

theorem two_pow_aw_le (mode64 : Bool) : 2 ^ Config.aw mode64 ≤ 2 ^ 64 := by
  cases mode64 <;> simp [Config.aw]

/-- `rip` after a completed form, as a number: no wrap. -/
theorem completedState_rip_toNat {i : Instr} {s : State} (h : Completes i s) :
    (completedState i s).rip.toNat = s.rip.toNat + i.ilen := by
  have h3 := h.2.2
  have haw := two_pow_aw_le s.mode64
  unfold RipFits at h3
  simp only [completedState, BitVec.toNat_add, BitVec.toNat_ofNat, Instr.ilen]
  omega

/-- Every instruction has 7 to 12 bytes (R44). -/
theorem instr_ilen_bounds (i : Instr) : 7 ≤ i.ilen ∧ i.ilen ≤ 12 := by
  unfold Instr.ilen ShufOperands.ilen
  rcases i.operands.src2 with r | ⟨⟨b, d⟩ | d | ⟨sc, ix, b, d⟩ | ⟨sc, ix, d⟩, bc⟩ <;>
    simp [Src2.tailLength] <;> (cases d <;> simp [Disp.length])

/-- One more step of a run. -/
theorem run_succ_next {M : Host.Core} {n : Nat} {s t : M.State} (h : Host.Core.run M (n + 1) s = .next t) :
    ∃ u, M.step s = .next u ∧ Host.Core.run M n u = .next t := by
  rw [Host.Core.run.eq_2] at h
  cases hs : M.step s with
  | next u => rw [hs] at h; exact ⟨u, rfl, h⟩
  | fault r => rw [hs] at h; cases h
  | refused r => rw [hs] at h; cases h

/-- A relation between step count, start and end that holds of no step and is extended by a step in front holds of
every run. -/
theorem run_induction {R : Nat → State → State → Prop} (refl : ∀ s, R 0 s s)
    (cons : ∀ n s u t, step s = .next u → R n u t → R (n + 1) s t) :
    ∀ n (s t : State), Host.Core.run core n s = .next t → R n s t := by
  intro n
  induction n with
  | zero => intro s t h; injection h with h; subst h; exact refl s
  | succ n ih =>
    intro s t h
    obtain ⟨u, hu, h⟩ := run_succ_next h
    exact cons n s u t hu (ih u t h)

theorem sameBesideVectors_refl (s : State) : SameBesideVectors s s :=
  ⟨rfl, rfl, ⟨rfl, rfl⟩, fun _ => rfl, rfl, rfl, rfl, rfl, rfl, rfl, rfl⟩

theorem sameBesideVectors_trans {s t u : State} (h1 : SameBesideVectors s t) (h2 : SameBesideVectors t u) :
    SameBesideVectors s u := by
  obtain ⟨a1, a2, ⟨a3, a4⟩, a5, a6, a7, a8, a9, a10, a11, a12⟩ := h1
  obtain ⟨b1, b2, ⟨b3, b4⟩, b5, b6, b7, b8, b9, b10, b11, b12⟩ := h2
  exact ⟨b1.trans a1, b2.trans a2, ⟨b3.trans a3, b4.trans a4⟩, fun a => (b5 a).trans (a5 a), b6.trans a6,
    b7.trans a7, b8.trans a8, b9.trans a9, b10.trans a10, b11.trans a11, b12.trans a12⟩

end Sys2Proof.Machine
end

