-- ==== Sys2Proof/Tests/Slice0.lean ====
section
/-! SUPPORT. Tests on fixed values, each expected result taken from 95_test_vectors.md (its vector's number is in the name),
and for every statement a witness that its hypotheses can be met together. -/

namespace Sys2Proof.Tests

open Sys2Proof Sys2Proof.Machine

set_option Elab.async false

/-! ## Builders -/

def nextOf : Host.Outcome State Fault Refusal → Option State
  | .next t => some t
  | .fault _ => none
  | .refused _ => none

def faultOf : Host.Outcome State Fault Refusal → Option Fault
  | .next _ => none
  | .fault f => some f
  | .refused _ => none

def refusalOf : Host.Outcome State Fault Refusal → Option Refusal
  | .next _ => none
  | .fault _ => none
  | .refused r => some r

theorem next_of_isSome {o : Host.Outcome State Fault Refusal} (h : (nextOf o).isSome = true) : ∃ t, o = .next t := by
  cases o with
  | next t => exact ⟨t, rfl⟩
  | fault f => cases h
  | refused r => cases h

theorem fault_of_faultOf {o : Host.Outcome State Fault Refusal} {f : Fault} (h : faultOf o = some f) : o = .fault f := by
  cases o with
  | next t => cases h
  | fault g => injection h with h; rw [h]
  | refused r => cases h

theorem refused_of_refusalOf {o : Host.Outcome State Fault Refusal} {r : Refusal} (h : refusalOf o = some r) :
    o = .refused r := by
  cases o with
  | next t => cases h
  | fault g => cases h
  | refused q => injection h with h; rw [h]

theorem completes_of_isSome {i : Instr} {s : State} (h : (nextOf (exec i s)).isSome = true) : Completes i s := by
  obtain ⟨t, ht⟩ := next_of_isSome h
  exact ((exec_next_iff i s t).1 ht).1

/-- A 512-bit value from its doublewords, doubleword 0 first (95_test_vectors.md §2.1). -/
def dwords : List Nat → ZmmWord
  | [] => 0
  | d :: ds => (dwords ds <<< 32) ||| BitVec.ofNat 512 d

/-- `base, base + 1, ...`: `S1`, `S2` and `OLD` of §2.1. -/
def counting (base : Nat) : ZmmWord := dwords ((List.range 16).map (base + ·))

/-- The 64 bytes of `S2` in memory (§2.1). -/
def s2Bytes : List Byte := (List.range 64).map fun n => BitVec.ofNat 8 ((0xB0B00000 + n / 4) / 256 ^ (n % 4))

/-- The launch state of §2.2: `OLD` in register 5, `S1` in 6, `S2` in 7 and at `rax = 2000H`, a mask in `k[2]`, code at
`1000H`. -/
def start (mask : Nat) (code : List Byte) : State :=
  storeAtRip code
    { State.reset with
      rip := 0x1000
      zmm := ((State.reset.zmm.set 5 (counting 0xDDDD0000)).set 6 (counting 0xA0A00000)).set 7 (counting 0xB0B00000)
      k := State.reset.k.set 2 (BitVec.ofNat Config.kw mask)
      gpr := State.reset.gpr.set 0 0x2000
      mem := Memory.writeBytes [] 0x2000 s2Bytes }

/-- What register 5 holds after one step from the launch state. -/
def result (mask : Nat) (code : List Byte) : Option ZmmWord :=
  (nextOf (step (start mask code))).map fun t => readZmm t 5

def zeroLanes : List Nat := [0, 0, 0, 0, 0, 0, 0, 0]

/-! ## WellFormed refuses -/

theorem test_wellFormed_accepts : (Instr.vshuff32x4y ⟨1, 2, .reg 3, .none, 3⟩).wellFormed false = true := by decide

theorem test_wellFormed_destination_above_7 :
    (Instr.vshuff32x4y ⟨8, 2, .reg 3, .none, 3⟩).wellFormed false = false := by decide

theorem test_wellFormed_first_source_above_7 :
    (Instr.vshuff32x4z ⟨1, 8, .reg 3, .none, 3⟩).wellFormed false = false := by decide

theorem test_wellFormed_second_source_above_7 :
    (Instr.vshuff64x2y ⟨1, 2, .reg 8, .none, 3⟩).wellFormed false = false := by decide

theorem test_wellFormed_base_above_7 :
    (Instr.vshuff64x2z ⟨1, 2, .mem (.base 8 .none) false, .none, 3⟩).wellFormed false = false := by decide

theorem test_wellFormed_sib_base_above_7 :
    (Instr.vshuff64x2z ⟨1, 2, .mem (.sib 0 1 8 .none) false, .none, 3⟩).wellFormed false = false := by decide

theorem test_wellFormed_index_above_7 :
    (Instr.vshufi32x4y ⟨1, 2, .mem (.sib 0 9 0 .none) false, .none, 3⟩).wellFormed false = false := by decide

theorem test_wellFormed_lonely_index_above_7 :
    (Instr.vshufi32x4y ⟨1, 2, .mem (.sibNoBase 0 9 0) false, .none, 3⟩).wellFormed false = false := by decide

theorem test_wellFormed_base_needs_sib :
    (Instr.vshufi32x4z ⟨1, 2, .mem (.base 4 .none) false, .none, 3⟩).wellFormed true = false := by decide

theorem test_wellFormed_base_needs_displacement :
    (Instr.vshufi64x2y ⟨1, 2, .mem (.base 13 .none) true, .none, 3⟩).wellFormed true = false := by decide

theorem test_wellFormed_sib_base_needs_displacement :
    (Instr.vshufi64x2y ⟨1, 2, .mem (.sib 0 1 5 .none) true, .none, 3⟩).wellFormed true = false := by decide

theorem test_wellFormed_mask_0_merging :
    (Instr.vshufi64x2z ⟨1, 2, .reg 3, .merging 0, 3⟩).wellFormed true = false := by decide

theorem test_wellFormed_mask_0_zeroing :
    (Instr.vshufi64x2z ⟨1, 2, .reg 3, .zeroing 0, 3⟩).wellFormed true = false := by decide

/-! ## Decoding (§2.3) -/

/-- E1 to E8: one row each of the opcode table. -/
theorem test_decode_E1_to_E8 :
    decode true [0x62, 0xF3, 0x6D, 0x28, 0x23, 0xCB, 0x03] = .instr (.vshuff32x4y ⟨1, 2, .reg 3, .none, 0x03⟩) [] ∧
    decode true [0x62, 0xF3, 0x6D, 0x48, 0x23, 0xCB, 0x1B] = .instr (.vshuff32x4z ⟨1, 2, .reg 3, .none, 0x1B⟩) [] ∧
    decode true [0x62, 0xF3, 0xED, 0x28, 0x23, 0xCB, 0x03] = .instr (.vshuff64x2y ⟨1, 2, .reg 3, .none, 0x03⟩) [] ∧
    decode true [0x62, 0xF3, 0xED, 0x48, 0x23, 0xCB, 0x1B] = .instr (.vshuff64x2z ⟨1, 2, .reg 3, .none, 0x1B⟩) [] ∧
    decode true [0x62, 0xF3, 0x6D, 0x28, 0x43, 0xCB, 0x03] = .instr (.vshufi32x4y ⟨1, 2, .reg 3, .none, 0x03⟩) [] ∧
    decode true [0x62, 0xF3, 0x6D, 0x48, 0x43, 0xCB, 0x1B] = .instr (.vshufi32x4z ⟨1, 2, .reg 3, .none, 0x1B⟩) [] ∧
    decode true [0x62, 0xF3, 0xED, 0x28, 0x43, 0xCB, 0x03] = .instr (.vshufi64x2y ⟨1, 2, .reg 3, .none, 0x03⟩) [] ∧
    decode true [0x62, 0xF3, 0xED, 0x48, 0x43, 0xCB, 0x1B] = .instr (.vshufi64x2z ⟨1, 2, .reg 3, .none, 0x1B⟩) [] := by
  decide +kernel

/-- E9, E10, E11, E14: register numbers above 7 and above 15, a zeroing mask. -/
theorem test_decode_registers :
    decode true [0x62, 0xF3, 0x75, 0x48, 0x23, 0xC1, 0xAA] = .instr (.vshuff32x4z ⟨0, 1, .reg 1, .none, 0xAA⟩) [] ∧
    decode true [0x62, 0x03, 0xFD, 0x40, 0x23, 0xF8, 0xFF] = .instr (.vshuff64x2z ⟨31, 16, .reg 24, .none, 0xFF⟩) [] ∧
    decode true [0x62, 0x53, 0xB5, 0xC5, 0x23, 0xCE, 0x39] =
      .instr (.vshuff64x2z ⟨9, 25, .reg 14, .zeroing 5, 0x39⟩) [] ∧
    decode true [0x62, 0x73, 0x4D, 0xCA, 0x43, 0x00, 0x4E] =
      .instr (.vshufi32x4z ⟨8, 6, .mem (.base 0 .none) false, .zeroing 2, 0x4E⟩) [] := by
  decide +kernel

/-- E12, E15 to E19: memory operands, displacements of both lengths, broadcast. -/
theorem test_decode_memory :
    decode true [0x62, 0xF3, 0x4D, 0x4A, 0x43, 0x28, 0xE4] =
      .instr (.vshufi32x4z ⟨5, 6, .mem (.base 0 .none) false, .merging 2, 0xE4⟩) [] ∧
    decode true [0x62, 0xF3, 0xC5, 0xB9, 0x23, 0x63, 0x01, 0x02] =
      .instr (.vshuff64x2y ⟨4, 7, .mem (.base 3 (.disp8 1)) true, .zeroing 1, 0x02⟩) [] ∧
    decode true [0x62, 0x83, 0x0D, 0x57, 0x23, 0x4C, 0x91, 0x40, 0x9C] =
      .instr (.vshuff32x4z ⟨17, 30, .mem (.sib 2 10 9 (.disp8 0x40)) true, .merging 7, 0x9C⟩) [] ∧
    decode true [0x62, 0x73, 0xB5, 0x48, 0x43, 0x47, 0x01, 0x88] =
      .instr (.vshufi64x2z ⟨8, 9, .mem (.base 7 (.disp8 1)) false, .none, 0x88⟩) [] ∧
    decode true [0x62, 0x73, 0xB5, 0x48, 0x43, 0x87, 0x41, 0x00, 0x00, 0x00, 0x88] =
      .instr (.vshufi64x2z ⟨8, 9, .mem (.base 7 (.disp32 0x41)) false, .none, 0x88⟩) [] ∧
    decode true [0x62, 0xF3, 0x65, 0x28, 0x43, 0x56, 0x01, 0x01] =
      .instr (.vshufi32x4y ⟨2, 3, .mem (.base 6 (.disp8 1)) false, .none, 0x01⟩) [] := by
  decide +kernel

/-- E25 to E31: the special cases of ModRM and SIB. -/
theorem test_decode_special_addresses :
    decode true [0x62, 0xF3, 0x6D, 0x48, 0x23, 0x0D, 0x00, 0x01, 0x00, 0x00, 0x00] =
      .instr (.vshuff32x4z ⟨1, 2, .mem (.disp32 0x100) false, .none, 0⟩) [] ∧
    decode true [0x62, 0xF3, 0x6D, 0x48, 0x23, 0x0C, 0x24, 0x00] =
      .instr (.vshuff32x4z ⟨1, 2, .mem (.sib 0 4 4 .none) false, .none, 0⟩) [] ∧
    decode true [0x62, 0xD3, 0x6D, 0x48, 0x23, 0x0C, 0x24, 0x00] =
      .instr (.vshuff32x4z ⟨1, 2, .mem (.sib 0 4 12 .none) false, .none, 0⟩) [] ∧
    decode true [0x62, 0xF3, 0x6D, 0x48, 0x23, 0x4D, 0x00, 0x00] =
      .instr (.vshuff32x4z ⟨1, 2, .mem (.base 5 (.disp8 0)) false, .none, 0⟩) [] ∧
    decode true [0x62, 0xD3, 0x6D, 0x48, 0x23, 0x4D, 0x00, 0x00] =
      .instr (.vshuff32x4z ⟨1, 2, .mem (.base 13 (.disp8 0)) false, .none, 0⟩) [] ∧
    decode true [0x62, 0xF3, 0x6D, 0x48, 0x23, 0x0C, 0xCD, 0x00, 0x10, 0x00, 0x00, 0x00] =
      .instr (.vshuff32x4z ⟨1, 2, .mem (.sibNoBase 3 1 0x1000) false, .none, 0⟩) [] ∧
    decode true [0x62, 0xF3, 0x6D, 0x48, 0x23, 0x0C, 0x25, 0x00, 0x10, 0x00, 0x00, 0x00] =
      .instr (.vshuff32x4z ⟨1, 2, .mem (.sibNoBase 0 4 0x1000) false, .none, 0⟩) [] := by
  decide +kernel

/-- X1 to X9: the encodings that raise `#UD`. -/
theorem test_decode_invalid :
    ∀ b ∈ [[0x62, 0xF3, 0x6D, 0x08, 0x23, 0xCB, 0x03], [0x62, 0xF3, 0xED, 0x08, 0x23, 0xCB, 0x03],
      [0x62, 0xF3, 0x6D, 0x08, 0x43, 0xCB, 0x03], [0x62, 0xF3, 0xED, 0x08, 0x43, 0xCB, 0x03],
      [0x62, 0xF3, 0x6D, 0x68, 0x23, 0xCB, 0x03], [0x62, 0xF3, 0xED, 0x68, 0x43, 0xCB, 0x03],
      [0x62, 0xF7, 0x6D, 0x48, 0x23, 0xCB, 0x1B], [0x62, 0xFB, 0x6D, 0x48, 0x23, 0xCB, 0x1B],
      [0x62, 0xF3, 0x69, 0x48, 0x23, 0xCB, 0x1B]], decode true b = .invalidOpcode := by
  decide +kernel

/-- X10 to X17: the byte strings without a meaning. -/
theorem test_decode_refused :
    decode true [0x62, 0xF3, 0x6D, 0x58, 0x23, 0xCB, 0x1B] = .refused .registerBroadcast ∧
    decode true [0x62, 0xF3, 0x6D, 0xC8, 0x23, 0xCB, 0x1B] = .refused .zeroingWithoutMask ∧
    decode true [0x62, 0xF3, 0x6C, 0x48, 0x23, 0xCB, 0x1B] = .refused .otherInstruction ∧
    decode true [0x62, 0xF2, 0x6D, 0x48, 0x23, 0xCB, 0x1B] = .refused .otherInstruction ∧
    decode true [0x62, 0xF3, 0x6D, 0x48, 0x24, 0xCB, 0x1B] = .refused .otherInstruction ∧
    decode true [0xF0, 0x62, 0xF3, 0x6D, 0x48, 0x23, 0xCB, 0x1B] = .refused .notEvex ∧
    decode true [0x66, 0x62, 0xF3, 0x6D, 0x48, 0x23, 0xCB, 0x1B] = .refused .notEvex ∧
    decode true [0x64, 0x62, 0xF3, 0x6D, 0x48, 0x23, 0x08, 0x1B] = .refused .notEvex := by
  decide +kernel

/-- The encoder writes the bytes of E10, E16 and E31. -/
theorem test_encode_E10_E16_E31 :
    encode (.vshuff64x2z ⟨31, 16, .reg 24, .none, 0xFF⟩) = [0x62, 0x03, 0xFD, 0x40, 0x23, 0xF8, 0xFF] ∧
    encode (.vshuff32x4z ⟨17, 30, .mem (.sib 2 10 9 (.disp8 0x40)) true, .merging 7, 0x9C⟩) =
      [0x62, 0x83, 0x0D, 0x57, 0x23, 0x4C, 0x91, 0x40, 0x9C] ∧
    encode (.vshuff32x4z ⟨1, 2, .mem (.sibNoBase 0 4 0x1000) false, .none, 0⟩) =
      [0x62, 0xF3, 0x6D, 0x48, 0x23, 0x0C, 0x25, 0x00, 0x10, 0x00, 0x00, 0x00] := by
  decide +kernel

/-- The text column of E10, E15, E21, E25 and E30. -/
theorem test_assemblerText :
    assemblerText true (.vshuff64x2z ⟨31, 16, .reg 24, .none, 0xFF⟩) = "VSHUFF64x2 zmm31, zmm16, zmm24, FFH" ∧
    assemblerText true (.vshuff64x2y ⟨4, 7, .mem (.base 3 (.disp8 1)) true, .zeroing 1, 0x02⟩) =
      "VSHUFF64x2 ymm4" ++ inBraces "k1" ++ inBraces "z" ++ ", ymm7, [rbx+8H]" ++ inBraces "1to4" ++ ", 02H" ∧
    assemblerText true (.vshuff32x4z ⟨1, 2, .mem (.base 0 (.disp8 0xFF)) false, .none, 0⟩) =
      "VSHUFF32x4 zmm1, zmm2, [rax-40H], 00H" ∧
    assemblerText true (.vshuff32x4z ⟨1, 2, .mem (.disp32 0x100) false, .none, 0⟩) =
      "VSHUFF32x4 zmm1, zmm2, [rip+100H], 00H" ∧
    assemblerText true (.vshuff32x4z ⟨1, 2, .mem (.sibNoBase 3 1 0x1000) false, .none, 0⟩) =
      "VSHUFF32x4 zmm1, zmm2, [rcx*8+1000H], 00H" := by
  decide +kernel

/-! ## Effective addresses (§2.3) -/

/-- E16 with `r9 = 4000H`, `r10 = 10H`: 4140H. E21 with `rax = 2000H`: 1FC0H. E25 at `1000H`: 1000H + 11 + 100H. -/
theorem test_effectiveAddress :
    effectiveAddress 4 9 (.sib 2 10 9 (.disp8 0x40))
      { State.reset with gpr := (State.reset.gpr.set 9 0x4000).set 10 0x10 } = 0x4140 ∧
    effectiveAddress 64 8 (.base 0 (.disp8 0xFF)) (start 0 []) = 0x1FC0 ∧
    effectiveAddress 64 11 (.disp32 0x100) (start 0 []) = 0x110B := by
  decide +kernel

/-- Modulo `2^32` in 32-bit modes, high halves of registers not read (R46). -/
theorem test_effectiveAddress_32 :
    effectiveAddress 4 8 (.sib 0 1 0 (.disp8 1))
      { State.reset with mode64 := false, gpr := (State.reset.gpr.set 0 0x5FFFFFFFF).set 1 0x10 } = 0x13 := by
  decide +kernel

/-! ## Semantic vectors (§2.2): register 5 = 6 shuffled with 7 or with memory -/

theorem test_vshuff32x4y_V16 : result 0 [0x62, 0xF3, 0x4D, 0x28, 0x23, 0xEF, 0x02] =
    some (dwords ([0xA0A00000, 0xA0A00001, 0xA0A00002, 0xA0A00003, 0xB0B00004, 0xB0B00005, 0xB0B00006, 0xB0B00007] ++
      zeroLanes)) := by
  decide +kernel

/-- V21: broadcast of the four bytes at `rax`. -/
theorem test_vshuff32x4y_V21 : result 0 [0x62, 0xF3, 0x4D, 0x38, 0x23, 0x28, 0x02] =
    some (dwords ([0xA0A00000, 0xA0A00001, 0xA0A00002, 0xA0A00003, 0xB0B00000, 0xB0B00000, 0xB0B00000, 0xB0B00000] ++
      zeroLanes)) := by
  decide +kernel

theorem test_vshuff32x4z_V2 : result 0 [0x62, 0xF3, 0x4D, 0x48, 0x23, 0xEF, 0x1B] =
    some (dwords [0xA0A0000C, 0xA0A0000D, 0xA0A0000E, 0xA0A0000F, 0xA0A00008, 0xA0A00009, 0xA0A0000A, 0xA0A0000B,
      0xB0B00004, 0xB0B00005, 0xB0B00006, 0xB0B00007, 0xB0B00000, 0xB0B00001, 0xB0B00002, 0xB0B00003]) := by
  decide +kernel

theorem test_vshuff32x4z_V12 : result 0 [0x62, 0xF3, 0x4D, 0x58, 0x23, 0x28, 0x9C] =
    some (dwords [0xA0A00000, 0xA0A00001, 0xA0A00002, 0xA0A00003, 0xA0A0000C, 0xA0A0000D, 0xA0A0000E, 0xA0A0000F,
      0xB0B00000, 0xB0B00000, 0xB0B00000, 0xB0B00000, 0xB0B00000, 0xB0B00000, 0xB0B00000, 0xB0B00000]) := by
  decide +kernel

/-- V20: zeroing on four elements. -/
theorem test_vshuff64x2y_V20 : result 0x06 [0x62, 0xF3, 0xCD, 0xAA, 0x23, 0xEF, 0x01] =
    some (dwords ([0, 0, 0xA0A00006, 0xA0A00007, 0xB0B00000, 0xB0B00001, 0, 0] ++ zeroLanes)) := by
  decide +kernel

theorem test_vshuff64x2z_V8 : result 0xA5 [0x62, 0xF3, 0xCD, 0x4A, 0x23, 0xEF, 0x1B] =
    some (dwords [0xA0A0000C, 0xA0A0000D, 0xDDDD0002, 0xDDDD0003, 0xA0A00008, 0xA0A00009, 0xDDDD0006, 0xDDDD0007,
      0xDDDD0008, 0xDDDD0009, 0xB0B00006, 0xB0B00007, 0xDDDD000C, 0xDDDD000D, 0xB0B00002, 0xB0B00003]) := by
  decide +kernel

theorem test_vshuff64x2z_V9 : result 0xA5 [0x62, 0xF3, 0xCD, 0xCA, 0x23, 0xEF, 0x1B] =
    some (dwords [0xA0A0000C, 0xA0A0000D, 0, 0, 0xA0A00008, 0xA0A00009, 0, 0,
      0, 0, 0xB0B00006, 0xB0B00007, 0, 0, 0xB0B00002, 0xB0B00003]) := by
  decide +kernel

/-- V23: mask bits 15:8 not read, upper half zeroed, not merged. -/
theorem test_vshufi32x4y_V23 : result 0xFF5A [0x62, 0xF3, 0x4D, 0x2A, 0x43, 0xEF, 0x03] =
    some (dwords ([0xDDDD0000, 0xA0A00005, 0xDDDD0002, 0xA0A00007, 0xB0B00004, 0xDDDD0005, 0xB0B00006, 0xDDDD0007] ++
      zeroLanes)) := by
  decide +kernel

theorem test_vshufi32x4z_V6 : result 0xA5A5 [0x62, 0xF3, 0x4D, 0x4A, 0x43, 0xEF, 0x1B] =
    some (dwords [0xA0A0000C, 0xDDDD0001, 0xA0A0000E, 0xDDDD0003, 0xDDDD0004, 0xA0A00009, 0xDDDD0006, 0xA0A0000B,
      0xB0B00004, 0xDDDD0009, 0xB0B00006, 0xDDDD000B, 0xDDDD000C, 0xB0B00001, 0xDDDD000E, 0xB0B00003]) := by
  decide +kernel

/-- V22: broadcast of eight bytes, merging on four elements. -/
theorem test_vshufi64x2y_V22 : result 0x09 [0x62, 0xF3, 0xCD, 0x3A, 0x43, 0x28, 0x01] =
    some (dwords ([0xA0A00004, 0xA0A00005, 0xDDDD0002, 0xDDDD0003, 0xDDDD0004, 0xDDDD0005, 0xB0B00000, 0xB0B00001] ++
      zeroLanes)) := by
  decide +kernel

/-- V3 with the whole second source in memory. -/
theorem test_vshufi64x2z_V3 : result 0 [0x62, 0xF3, 0xCD, 0x48, 0x43, 0x28, 0x4E] =
    some (dwords [0xA0A00008, 0xA0A00009, 0xA0A0000A, 0xA0A0000B, 0xA0A0000C, 0xA0A0000D, 0xA0A0000E, 0xA0A0000F,
      0xB0B00000, 0xB0B00001, 0xB0B00002, 0xB0B00003, 0xB0B00004, 0xB0B00005, 0xB0B00006, 0xB0B00007]) := by
  decide +kernel

/-! ## Faults and refusals (§2.5) -/

def e1 : List Byte := [0x62, 0xF3, 0x6D, 0x28, 0x23, 0xCB, 0x03]
def e2 : List Byte := [0x62, 0xF3, 0x6D, 0x48, 0x23, 0xCB, 0x1B]
def e12 : List Byte := [0x62, 0xF3, 0x4D, 0x4A, 0x43, 0x28, 0xE4]
def x1 : List Byte := [0x62, 0xF3, 0x6D, 0x08, 0x23, 0xCB, 0x03]

/-- A page fault for the byte at `base`. -/
def pageFaultAt (base : Nat) : MemFaultEntry := ⟨.bytes base 1, .pageFault 0 (BitVec.ofNat 64 base)⟩

def withTs (s : State) : State := { s with ts := true }
def withPageFault (base : Nat) (s : State) : State := { s with memFault := [pageFaultAt base] }

theorem test_X18_X20_X21 :
    faultOf (step { start 0 e1 with hasAVX512VL := false }) = some .invalidOpcode ∧
    faultOf (step { start 0 e2 with hasAVX512F := false }) = some .invalidOpcode ∧
    faultOf (step { start 0 e2 with stateEnabled := false }) = some .invalidOpcode := by
  decide +kernel

theorem test_X19_executes : (nextOf (step { start 0 e2 with hasAVX512VL := false })).isSome = true := by decide +kernel

theorem test_X22_X23_X24 :
    faultOf (step (withTs (start 0 e2))) = some .deviceNotAvailable ∧
    faultOf (step (withTs (start 0 x1))) = some .invalidOpcode ∧
    faultOf (step (withTs (withPageFault 0x2000 (start 0 e12)))) = some .deviceNotAvailable := by
  decide +kernel

/-- X25: the mask writes nothing, yet byte `ea + 63` faults. -/
theorem test_X25 : faultOf (step (withPageFault 0x203F (start 0 e12))) = some (.memory (.pageFault 0 0x203F)) := by
  decide +kernel

/-- X26 with the eight bytes at `rax`: the ninth byte is not read. -/
theorem test_X26_executes :
    (nextOf (step (withPageFault 0x2008 (start 0 [0x62, 0xF3, 0xCD, 0x3A, 0x43, 0x28, 0x01])))).isSome = true := by
  decide +kernel

/-- X27. -/
theorem test_X27 :
    refusalOf (step (storeAtRip e1 { State.reset with rip := 0xFFFFFFFFFFFFFFFD })) =
      some (.encoding .truncated) := by
  decide +kernel

/-- An operand that reaches beyond the top of the address space is read, with free bytes (log 8). -/
theorem test_operand_beyond_top_completes :
    (nextOf (step { start 0 e12 with gpr := State.reset.gpr.set 0 0xFFFFFFFFFFFFFFFF })).isSome = true := by
  decide +kernel

/-! ## The interface -/

/-- The fixed bits of the first row of the table, all others zero, stored where reset fetches, run as the first
instruction. -/
theorem test_tableWord_after_reset :
    decodeTableWord 40 0x2320050362 = some (.vshuff32x4y ⟨24, 31, .mem (.base 8 .none) false, .none, 0⟩) ∧
    ((nextOf (step (State.reset.withFetchWord 40 0x2320050362))).map (·.rip)) = some 0xFFFFFFF7 := by
  decide +kernel

/-! ## Witnesses: the hypotheses of each statement, met together -/

/-- Program P1 of 95_test_vectors.md §3: two instructions. -/
def p1Program : List Byte :=
  [0x62, 0xF3, 0xF5, 0x48, 0x43, 0xDA, 0x88, 0x62, 0xF3, 0xF5, 0x48, 0x43, 0xE2, 0xDD]

/-- E1 in the last seven bytes of the address space. -/
def atTop : State := storeAtRip e1 { State.reset with rip := 0xFFFFFFFFFFFFFFF9 }

/-- Every form with register operands; `m` its writemask. -/
def registerForms (m : Writemask) : List Instr :=
  let o : ShufOperands := ⟨5, 6, .reg 7, m, 0x1B⟩
  [.vshuff32x4y o, .vshuff32x4z o, .vshuff64x2y o, .vshuff64x2z o, .vshufi32x4y o, .vshufi32x4z o, .vshufi64x2y o,
    .vshufi64x2z o]

/-- Every form with a memory second source at `rax`. -/
def memoryForms (bcast : Bool) (m : Writemask) : List Instr :=
  let o : ShufOperands := ⟨5, 6, .mem (.base 0 .none) bcast, m, 0x1B⟩
  [.vshuff32x4y o, .vshuff32x4z o, .vshuff64x2y o, .vshuff64x2z o, .vshufi32x4y o, .vshufi32x4z o, .vshufi64x2y o,
    .vshufi64x2z o]

theorem test_every_register_form_completes :
    ∀ m ∈ [Writemask.none, .merging 2, .zeroing 2], ∀ i ∈ registerForms m,
      (nextOf (exec i (start 0xA5 []))).isSome = true := by
  decide +kernel

theorem test_every_memory_form_completes :
    ∀ b ∈ [false, true], ∀ m ∈ [Writemask.none, .merging 2, .zeroing 2], ∀ i ∈ memoryForms b m,
      (nextOf (exec i (start 0xA5 []))).isSome = true := by
  decide +kernel

theorem witness_StepKeepsTheInvariant : (start 0 e1).Inv ∧ ∃ t, step (start 0 e1) = .next t :=
  ⟨⟨by decide +kernel, by decide +kernel⟩, next_of_isSome (by decide +kernel)⟩

theorem witness_RunWritesOnlyVectorsAndRip : ∃ t, Host.Core.run core 2 (start 0 p1Program) = .next t :=
  next_of_isSome (by decide +kernel)

theorem witness_RunMovesRipForward : ∃ t, Host.Core.run core 2 (start 0 p1Program) = .next t :=
  next_of_isSome (by decide +kernel)

/-- One fault of each kind that the conclusion lists: a bad encoding, a missing feature, `#NM`, a memory fault. -/
theorem witness_FaultsOnlyByTheRules :
    step (start 0 x1) = .fault .invalidOpcode ∧
    step { start 0 e2 with hasAVX512F := false } = .fault .invalidOpcode ∧
    step (withTs (start 0 e2)) = .fault .deviceNotAvailable ∧
    step (withPageFault 0x203F (start 0 e12)) = .fault (.memory (.pageFault 0 0x203F)) :=
  ⟨fault_of_faultOf (by decide +kernel), fault_of_faultOf (by decide +kernel), fault_of_faultOf (by decide +kernel),
    fault_of_faultOf (by decide +kernel)⟩

/-- Both modes, at the highest registers each can name. -/
theorem witness_DecodeOfEncode :
    (Instr.vshuff64x2z ⟨31, 31, .reg 31, .zeroing 7, 0xFF⟩).wellFormed true = true ∧
    (Instr.vshufi32x4y ⟨7, 7, .mem (.sib 3 7 7 (.disp8 0x80)) true, .merging 1, 0⟩).wellFormed false = true := by
  decide

theorem witness_DecodedIsWellFormed :
    decode true [0x62, 0x03, 0xFD, 0x40, 0x23, 0xF8, 0xFF] = .instr (.vshuff64x2z ⟨31, 16, .reg 24, .none, 0xFF⟩) [] ∧
    decode false e1 = .instr (.vshuff32x4y ⟨1, 2, .reg 3, .none, 0x03⟩) [] := by
  decide +kernel

theorem witness_Mode32IsASubsetOfMode64 :
    decode false e1 = .instr (.vshuff32x4y ⟨1, 2, .reg 3, .none, 0x03⟩) [] ∧
    decode false e12 = .instr (.vshufi32x4z ⟨5, 6, .mem (.base 0 .none) false, .merging 2, 0xE4⟩) [] := by
  decide +kernel

/-- The shortest register form, the shortest and the longest memory form, one with bytes after it. -/
theorem witness_LengthFromModrmAndSib :
    decode true [0x62, 0xF3, 0x6D, 0x28, 0x23, 0xCB, 0x03] = .instr (.vshuff32x4y ⟨1, 2, .reg 3, .none, 0x03⟩) [] ∧
    decode true [0x62, 0xF3, 0x4D, 0x4A, 0x43, 0x28, 0xE4, 0x90] =
      .instr (.vshufi32x4z ⟨5, 6, .mem (.base 0 .none) false, .merging 2, 0xE4⟩) [0x90] ∧
    decode true [0x62, 0xF3, 0x6D, 0x48, 0x23, 0x0C, 0xCD, 0x00, 0x10, 0x00, 0x00, 0x00] =
      .instr (.vshuff32x4z ⟨1, 2, .mem (.sibNoBase 3 1 0x1000) false, .none, 0⟩) [] := by
  decide +kernel

/-- The lowest and the highest register numbers. -/
theorem witness_RegisterNumbersFromFields :
    decode true [0x62, 0xF3, 0x7D, 0x48, 0x23, 0xC0, 0x00] = .instr (.vshuff32x4z ⟨0, 0, .reg 0, .none, 0⟩) [] ∧
    decode true [0x62, 0x03, 0x05, 0x40, 0x23, 0xFF, 0x00] = .instr (.vshuff32x4z ⟨31, 31, .reg 31, .none, 0⟩) [] := by
  decide +kernel

/-- A register second source; each of the four address rows, with no displacement, `disp8` and `disp32`; no writemask,
merging and zeroing. -/
theorem witness_OtherOperandsFromFields :
    decode true [0x62, 0x03, 0xFD, 0x40, 0x23, 0xF8, 0xFF] = .instr (.vshuff64x2z ⟨31, 16, .reg 24, .none, 0xFF⟩) [] ∧
    decode true [0x62, 0xF3, 0x4D, 0x4A, 0x43, 0x28, 0xE4] =
      .instr (.vshufi32x4z ⟨5, 6, .mem (.base 0 .none) false, .merging 2, 0xE4⟩) [] ∧
    decode true [0x62, 0x83, 0x0D, 0x57, 0x23, 0x4C, 0x91, 0x40, 0x9C] =
      .instr (.vshuff32x4z ⟨17, 30, .mem (.sib 2 10 9 (.disp8 0x40)) true, .merging 7, 0x9C⟩) [] ∧
    decode true [0x62, 0xF3, 0xC5, 0xB9, 0x23, 0x63, 0x01, 0x02] =
      .instr (.vshuff64x2y ⟨4, 7, .mem (.base 3 (.disp8 1)) true, .zeroing 1, 0x02⟩) [] ∧
    decode true [0x62, 0x73, 0xB5, 0x48, 0x43, 0x87, 0x41, 0x00, 0x00, 0x00, 0x88] =
      .instr (.vshufi64x2z ⟨8, 9, .mem (.base 7 (.disp32 0x41)) false, .none, 0x88⟩) [] ∧
    decode true [0x62, 0xF3, 0x6D, 0x48, 0x23, 0x0D, 0x00, 0x01, 0x00, 0x00, 0x00] =
      .instr (.vshuff32x4z ⟨1, 2, .mem (.disp32 0x100) false, .none, 0⟩) [] ∧
    decode true [0x62, 0xF3, 0x6D, 0x48, 0x23, 0x0C, 0xCD, 0x00, 0x10, 0x00, 0x00, 0x00] =
      .instr (.vshuff32x4z ⟨1, 2, .mem (.sibNoBase 3 1 0x1000) false, .none, 0⟩) [] := by
  decide +kernel

/-- One word for each of the eight rows, E1 to E8. -/
theorem witness_HeaderMatchesTheFormsRow :
    ∃ i1 i2 i3 i4, decode true (0x62 :: 0xF3 :: 0x6D :: 0x28 :: 0x23 :: 0xCB :: [0x03]) = .instr (.vshuff32x4y i1) [] ∧
      decode true (0x62 :: 0xF3 :: 0xED :: 0x48 :: 0x23 :: 0xCB :: [0x1B]) = .instr (.vshuff64x2z i2) [] ∧
      decode true (0x62 :: 0xF3 :: 0x6D :: 0x48 :: 0x43 :: 0xCB :: [0x1B]) = .instr (.vshufi32x4z i3) [] ∧
      decode true (0x62 :: 0xF3 :: 0xED :: 0x28 :: 0x43 :: 0xCB :: [0x03]) = .instr (.vshufi64x2y i4) [] :=
  let ⟨h1, _, _, h4, _, h6, h7, _⟩ := test_decode_E1_to_E8
  ⟨_, _, _, _, h1, h4, h6, h7⟩

/-- X1 in the last seven bytes of the address space. -/
def x1AtTop : State := storeAtRip x1 { State.reset with rip := 0xFFFFFFFFFFFFFFF9 }

/-- The bytes of X1, X5, X7 and X9, one for each of the four conditions. The other hypotheses hold of all four. X1 also in
32-bit modes, and where it ends with the address space. -/
theorem witness_InvalidEncodingsRaiseUD :
    (fetchBytes (start 0 x1) = 0x62 :: 0xF3 :: 0x6D :: 0x08 :: 0x23 :: 0xCB :: [0x03, 0, 0, 0, 0, 0] ∧
      (0x08 : Byte).extractLsb' 5 2 = 0) ∧
    (fetchBytes (start 0 [0x62, 0xF3, 0x6D, 0x68, 0x23, 0xCB, 0x03]) =
        0x62 :: 0xF3 :: 0x6D :: 0x68 :: 0x23 :: 0xCB :: [0x03, 0, 0, 0, 0, 0] ∧
      (0x68 : Byte).extractLsb' 5 2 = 3) ∧
    (fetchBytes (start 0 [0x62, 0xF7, 0x6D, 0x48, 0x23, 0xCB, 0x1B]) =
        0x62 :: 0xF7 :: 0x6D :: 0x48 :: 0x23 :: 0xCB :: [0x1B, 0, 0, 0, 0, 0] ∧
      (0xF7 : Byte).extractLsb' 2 2 ≠ 0) ∧
    (fetchBytes (start 0 [0x62, 0xF3, 0x69, 0x48, 0x23, 0xCB, 0x1B]) =
        0x62 :: 0xF3 :: 0x69 :: 0x48 :: 0x23 :: 0xCB :: [0x1B, 0, 0, 0, 0, 0] ∧
      (0x69 : Byte).extractLsb' 2 1 ≠ 1) ∧
    (GroupHeader 0x62 0xF3 0x6D 0x23 ∧ GroupHeader 0x62 0xF7 0x6D 0x23 ∧ GroupHeader 0x62 0xF3 0x69 0x23) ∧
    (∀ p2 ∈ [(0x08 : Byte), 0x68, 0x48], ¬ RegisterBroadcastFields p2 0xCB ∧ ¬ ZeroingWithoutMaskFields p2) ∧
    (start 0 x1).rip.toNat + encodedLength 0xCB [0x03, 0, 0, 0, 0, 0] ≤ 2 ^ Config.aw (start 0 x1).mode64 ∧
    (fetchBytes { start 0 x1 with mode64 := false } =
        0x62 :: 0xF3 :: 0x6D :: 0x08 :: 0x23 :: 0xCB :: [0x03, 0, 0, 0, 0, 0] ∧ Mode32Admits 0xF3 0x6D 0x08) ∧
    (fetchBytes x1AtTop = 0x62 :: 0xF3 :: 0x6D :: 0x08 :: 0x23 :: 0xCB :: [0x03] ∧
      x1AtTop.rip.toNat + encodedLength 0xCB [0x03] ≤ 2 ^ Config.aw x1AtTop.mode64) := by
  refine ⟨⟨?_, ?_⟩, ⟨?_, ?_⟩, ⟨?_, ?_⟩, ⟨?_, ?_⟩, ⟨?_, ?_, ?_⟩, ?_, ?_, ⟨?_, ?_⟩, ?_, ?_⟩ <;>
    (try unfold GroupHeader) <;> (try unfold RegisterBroadcastFields ZeroingWithoutMaskFields) <;>
    (try unfold Mode32Admits) <;> decide +kernel

/-- X10 for the first clause, X11 for the second, X10 also in 32-bit modes. -/
theorem witness_ReservedEncodingsAreRefused :
    (fetchBytes (start 0 [0x62, 0xF3, 0x6D, 0x58, 0x23, 0xCB, 0x1B]) =
        0x62 :: 0xF3 :: 0x6D :: 0x58 :: 0x23 :: 0xCB :: [0x1B, 0, 0, 0, 0, 0] ∧ RegisterBroadcastFields 0x58 0xCB) ∧
    (fetchBytes (start 0 [0x62, 0xF3, 0x6D, 0xC8, 0x23, 0xCB, 0x1B]) =
        0x62 :: 0xF3 :: 0x6D :: 0xC8 :: 0x23 :: 0xCB :: [0x1B, 0, 0, 0, 0, 0] ∧
      ¬ RegisterBroadcastFields 0xC8 0xCB ∧ ZeroingWithoutMaskFields 0xC8) ∧
    GroupHeader 0x62 0xF3 0x6D 0x23 ∧
    (start 0 x1).rip.toNat + encodedLength 0xCB [0x1B, 0, 0, 0, 0, 0] ≤ 2 ^ Config.aw (start 0 x1).mode64 ∧
    fetchBytes { start 0 [0x62, 0xF3, 0x6D, 0x58, 0x23, 0xCB, 0x1B] with mode64 := false } =
        0x62 :: 0xF3 :: 0x6D :: 0x58 :: 0x23 :: 0xCB :: [0x1B, 0, 0, 0, 0, 0] ∧ Mode32Admits 0xF3 0x6D 0x58 := by
  refine ⟨⟨?_, ?_⟩, ⟨?_, ?_, ?_⟩, ?_, ?_, ?_, ?_⟩ <;> (try unfold GroupHeader) <;>
    (try unfold RegisterBroadcastFields) <;> (try unfold ZeroingWithoutMaskFields) <;> (try unfold Mode32Admits) <;>
    decide +kernel

/-- X15, X13, X12 and X14 for the first four conditions, E10 in 32-bit modes for the last. -/
theorem witness_ForeignEncodingsAreRefused :
    (fetchBytes (start 0 (0xF0 :: e2))).take 6 = [0xF0, 0x62, 0xF3, 0x6D, 0x48, 0x23] ∧ (0xF0 : Byte) ≠ 0x62 ∧
    (fetchBytes (start 0 [0x62, 0xF2, 0x6D, 0x48, 0x23, 0xCB, 0x1B])).take 6 = [0x62, 0xF2, 0x6D, 0x48, 0x23, 0xCB] ∧
    (0xF2 : Byte).extractLsb' 0 2 ≠ 3 ∧
    (fetchBytes (start 0 [0x62, 0xF3, 0x6C, 0x48, 0x23, 0xCB, 0x1B])).take 6 = [0x62, 0xF3, 0x6C, 0x48, 0x23, 0xCB] ∧
    (0x6C : Byte).extractLsb' 0 2 ≠ 1 ∧
    (fetchBytes (start 0 [0x62, 0xF3, 0x6D, 0x48, 0x24, 0xCB, 0x1B])).take 6 = [0x62, 0xF3, 0x6D, 0x48, 0x24, 0xCB] ∧
    ((0x24 : Byte) ≠ 0x23 ∧ (0x24 : Byte) ≠ 0x43) ∧
    (fetchBytes { start 0 [0x62, 0x03, 0xFD, 0x40, 0x23, 0xF8, 0xFF] with mode64 := false }).take 6 =
      [0x62, 0x03, 0xFD, 0x40, 0x23, 0xF8] ∧ (0x03 : Byte).extractLsb' 4 4 ≠ 15 := by
  decide +kernel

/-- First clause: one byte too few, in both modes. Second clause: E30, of twelve bytes, with eleven left. -/
theorem witness_StraddlingInstructionIsRefused :
    2 ^ Config.aw true < (0xFFFFFFFFFFFFFFFA : Word64).toNat + 7 ∧
    2 ^ Config.aw false < (0xFFFFFFFA : Word64).toNat + 7 ∧
    fetchBytes (storeAtRip [0x62, 0xF3, 0x6D, 0x48, 0x23, 0x0C, 0xCD, 0x00, 0x10]
        { State.reset with rip := 0xFFFFFFFFFFFFFFF5 }) =
      0x62 :: 0xF3 :: 0x6D :: 0x48 :: 0x23 :: 0x0C :: [0xCD, 0x00, 0x10, 0, 0] ∧
    2 ^ Config.aw true < (0xFFFFFFFFFFFFFFF5 : Word64).toNat + encodedLength 0x0C [0xCD, 0x00, 0x10, 0, 0] := by
  refine ⟨?_, ?_, ?_, ?_⟩ <;> decide +kernel

theorem witness_StepRunsTheDecodedInstruction :
    ∃ rest, decode (start 0 e1).mode64 (fetchBytes (start 0 e1)) =
      .instr (.vshuff32x4y ⟨1, 2, .reg 3, .none, 0x03⟩) rest :=
  ⟨[0, 0, 0, 0, 0], by decide +kernel⟩

/-- Where the instruction ends with the address space. -/
theorem witness_StepRunsTheEncodedInstruction :
    let i : Instr := .vshuff32x4y ⟨1, 2, .reg 3, .none, 0x03⟩
    i.wellFormed atTop.mode64 = true ∧ atTop.rip.toNat + i.ilen ≤ 2 ^ Config.aw atTop.mode64 ∧
      ∀ m, m < i.ilen → some (atTop.mem.read (atTop.rip.toNat + m)) = (encode i)[m]? :=
  ⟨by decide +kernel, by decide +kernel, by decide +kernel⟩

/-- The reset state, and the highest `rip` allowed. -/
theorem witness_FetchWordRunsTheTableWord :
    State.reset.mem.wf = true ∧ State.reset.mode64 = true ∧ State.reset.rip.toNat + 12 ≤ 2 ^ 64 ∧
    (0xFFFFFFFFFFFFFFF4 : Word64).toNat + 12 ≤ 2 ^ 64 ∧
    decodeTableWord 40 0x2320050362 = some (.vshuff32x4y ⟨24, 31, .mem (.base 8 .none) false, .none, 0⟩) :=
  ⟨rfl, rfl, by decide +kernel, by decide +kernel, by decide +kernel⟩

/-- A register form, a memory form and a broadcast form. -/
theorem witness_CompletesExactlyUnderThePremises :
    Completes (.vshuff32x4y ⟨5, 6, .reg 7, .none, 2⟩) (start 0 []) ∧
    Completes (.vshuff64x2z ⟨5, 6, .mem (.base 0 .none) false, .merging 2, 2⟩) (start 0 []) ∧
    Completes (.vshufi64x2y ⟨5, 6, .mem (.base 0 .none) true, .zeroing 2, 2⟩) (start 0 []) :=
  ⟨completes_of_isSome (by decide +kernel), completes_of_isSome (by decide +kernel),
    completes_of_isSome (by decide +kernel)⟩

theorem witness_RefusedOnlyAtTheTop :
    exec (.vshuff32x4y ⟨1, 2, .reg 3, .none, 0x03⟩) atTop = .refused .ripWraps :=
  refused_of_refusalOf (by decide +kernel)

/-- Each clause: a bad encoding; a missing feature; `TS`; an unreadable byte. -/
theorem witness_ExceptionPriority :
    decode (start 0 x1).mode64 (fetchBytes (start 0 x1)) = .invalidOpcode ∧
    ¬ (FeaturePresent 256 { start 0 e1 with hasAVX512VL := false } ∧
        StateEnabled { start 0 e1 with hasAVX512VL := false }) ∧
    (FeaturePresent 512 (withTs (start 0 e2)) ∧ StateEnabled (withTs (start 0 e2)) ∧
      (withTs (start 0 e2)).ts = true) ∧
    Admitted 512 (withPageFault 0x203F (start 0 e12)) ∧
    dataAccess 512 32 ⟨5, 6, .mem (.base 0 .none) false, .merging 2, 0xE4⟩ (withPageFault 0x203F (start 0 e12)) =
      some (0x2000, 64) ∧
    memFaultFor (withPageFault 0x203F (start 0 e12)).memFault (0x2000 : Word64).toNat 64 =
      some (.pageFault 0 0x203F) := by
  refine ⟨by decide +kernel, fun h => ?_, ⟨⟨rfl, fun _ => rfl⟩, rfl, rfl⟩, ⟨⟨rfl, fun _ => rfl⟩, rfl, rfl⟩, ?_, ?_⟩
  · have := h.1.2 rfl
    cases this
  · decide +kernel
  · decide +kernel

/-- X25: a fault under a mask that writes nothing. -/
theorem witness_MaskSuppressesNoFault :
    exec (.vshufi32x4z ⟨5, 6, .mem (.base 0 .none) false, .merging 2, 0xE4⟩) (withPageFault 0x203F (start 0 [])) =
      .fault (.memory (.pageFault 0 0x203F)) :=
  fault_of_faultOf (by decide +kernel)

/-- Every 256-bit form. -/
theorem witness_Forms256WriteTheShuffle :
    ∀ i ∈ [Instr.vshuff32x4y, .vshuff64x2y, .vshufi32x4y, .vshufi64x2y],
      (i ⟨5, 6, .reg 7, .merging 2, 3⟩).vl = 256 ∧ Completes (i ⟨5, 6, .reg 7, .merging 2, 3⟩) (start 0x5A []) := by
  intro i hi
  simp only [List.mem_cons, List.not_mem_nil, or_false] at hi
  rcases hi with rfl | rfl | rfl | rfl <;> exact ⟨rfl, completes_of_isSome (by decide +kernel)⟩

/-- Every 512-bit form. -/
theorem witness_Forms512WriteTheShuffle :
    ∀ i ∈ [Instr.vshuff32x4z, .vshuff64x2z, .vshufi32x4z, .vshufi64x2z],
      (i ⟨5, 6, .reg 7, .merging 2, 3⟩).vl = 512 ∧ Completes (i ⟨5, 6, .reg 7, .merging 2, 3⟩) (start 0x5A []) := by
  intro i hi
  simp only [List.mem_cons, List.not_mem_nil, or_false] at hi
  rcases hi with rfl | rfl | rfl | rfl <;> exact ⟨rfl, completes_of_isSome (by decide +kernel)⟩

theorem witness_UnmaskedLanes256 :
    (Instr.vshuff32x4y ⟨5, 6, .reg 7, .none, 2⟩).vl = 256 ∧
      Completes (.vshuff32x4y ⟨5, 6, .reg 7, .none, 2⟩) (start 0 []) :=
  ⟨rfl, completes_of_isSome (by decide +kernel)⟩

theorem witness_UnmaskedLanes512 :
    (Instr.vshufi64x2z ⟨5, 6, .reg 7, .none, 0x4E⟩).vl = 512 ∧
      Completes (.vshufi64x2z ⟨5, 6, .reg 7, .none, 0x4E⟩) (start 0 []) :=
  ⟨rfl, completes_of_isSome (by decide +kernel)⟩

/-- A merging 256-bit form, whose bit 256 is the lowest one above `VL`. -/
theorem witness_UpperBitsOfTheDestinationAreZero :
    (∃ t, exec (.vshufi32x4y ⟨5, 6, .reg 7, .merging 2, 3⟩) (start 0 []) = .next t) ∧
      (Instr.vshufi32x4y ⟨5, 6, .reg 7, .merging 2, 3⟩).vl ≤ 256 :=
  ⟨next_of_isSome (by decide +kernel), le_refl 256⟩

theorem witness_CompletedFormWritesOnlyDestinationAndRip :
    ∃ t, exec (.vshuff64x2z ⟨5, 6, .mem (.base 0 .none) true, .zeroing 2, 3⟩) (start 0xA5 []) = .next t :=
  next_of_isSome (by decide +kernel)

/-- The last byte of the address space is the last byte of the operand: 64 bytes, and a broadcast element. -/
theorem witness_SecondSourceValue :
    let s := { State.reset with gpr := State.reset.gpr.set 0 0xFFFFFFFFFFFFFFC0 }
    (effectiveAddress (512 / 8) 7 (.base 0 .none) s).toNat + 63 < 2 ^ Config.aw s.mode64 ∧
    (effectiveAddress (32 / 8) 8 (.base 0 (.disp8 15)) s).toNat + 3 < 2 ^ Config.aw s.mode64 := by
  decide +kernel

/-- Both kinds of writemask, with three different registers. -/
theorem witness_OldDestinationUnreadWithoutMerging :
    (∃ i : Instr, i = .vshuff32x4z ⟨5, 6, .reg 7, .none, 0x1B⟩ ∧ i.operands.mask = .none ∧
      i.operands.d ≠ i.operands.s1 ∧ i.operands.src2 ≠ .reg i.operands.d) ∧
    ∃ i : Instr, i = .vshuff32x4z ⟨5, 6, .reg 7, .zeroing 2, 0x1B⟩ ∧ (∃ k, i.operands.mask = .zeroing k) ∧
      i.operands.d ≠ i.operands.s1 ∧ i.operands.src2 ≠ .reg i.operands.d :=
  ⟨⟨_, rfl, rfl, by decide, by decide⟩, ⟨_, rfl, ⟨2, rfl⟩, by decide, by decide⟩⟩

/-- V19 and V23: masks 5AH and FF5AH of an eight-element form. -/
theorem witness_OpmaskBitsAboveTheElementsUnread :
    (∀ (r : BitVec 3) (j : Nat), j < 8 →
      (readK { start 0x5A [] with k := (start 0xFF5A []).k } r).getLsbD j = (readK (start 0x5A []) r).getLsbD j) ∧
    (start 0xFF5A []).k ≠ (start 0x5A []).k ∧
    ∃ t, exec (.vshufi32x4y ⟨5, 6, .reg 7, .merging 2, 3⟩) (start 0x5A []) = .next t :=
  ⟨by decide +kernel, by decide +kernel, next_of_isSome (by decide +kernel)⟩

/-- V16 and V18: immediates 02H and FEH. -/
theorem witness_ImmediateBitsAbove1UnreadAt256 :
    (Instr.vshuff32x4y ⟨5, 6, .reg 7, .none, 0x02⟩).vl = 256 ∧
      (0xFE : BitVec 8).extractLsb' 0 2 = (0x02 : BitVec 8).extractLsb' 0 2 :=
  ⟨rfl, by decide⟩

/-- Each clause: immediates that differ in the idle bits only. -/
theorem witness_BroadcastMakesUpperSelectorsIdle :
    ((Instr.vshuff32x4y ⟨5, 6, .mem (.base 0 .none) true, .none, 0x00⟩).vl = 256 ∧
      (0x02 : BitVec 8).extractLsb' 0 1 = (0x00 : BitVec 8).extractLsb' 0 1) ∧
    ((Instr.vshuff32x4z ⟨5, 6, .mem (.base 0 .none) true, .none, 0x0C⟩).vl = 512 ∧
      (0x9C : BitVec 8).extractLsb' 0 4 = (0x0C : BitVec 8).extractLsb' 0 4) :=
  ⟨⟨rfl, by decide⟩, ⟨rfl, by decide⟩⟩

/-- The vectors of the launch state against their low halves. -/
theorem witness_UpperHalvesOfSourcesUnreadAt256 :
    let s := start 0 []
    let z' := s.zmm.map fun v => (v.extractLsb' 0 256).setWidth 512
    (∀ r : BitVec 5, (readZmm { s with zmm := z' } r).extractLsb' 0 256 = (readZmm s r).extractLsb' 0 256) ∧
      z' ≠ s.zmm ∧ ∃ t, exec (.vshuff32x4y ⟨5, 6, .reg 7, .none, 0x02⟩) s = .next t :=
  ⟨by decide +kernel, by decide +kernel, next_of_isSome (by decide +kernel)⟩

/-- An eight-byte broadcast, and a memory that differs from the ninth byte on. -/
theorem witness_OnlyTheOperandsBytesAreRead :
    let o : ShufOperands := ⟨5, 6, .mem (.base 0 .none) true, .none, 0x01⟩
    let s := start 0 []
    let m' := Memory.write 0x2008 0x77 s.mem
    dataAccess 256 64 o s = some (0x2000, 8) ∧ ¬ 2 ^ Config.aw s.mode64 < 0x2000 + 8 ∧ (∀ j, j < 8 → m'.read (0x2000 + j) = s.mem.read (0x2000 + j)) ∧
      m' ≠ s.mem ∧ ∃ t, exec (.vshuff64x2y o) s = .next t :=
  ⟨by decide +kernel, by decide +kernel, by decide +kernel, by decide +kernel, next_of_isSome (by decide +kernel)⟩

theorem witness_ElementSizesAgreeWithoutMaskAndBroadcast :
    let o : ShufOperands := ⟨5, 6, .mem (.base 0 .none) false, .none, 0x4E⟩
    o.mask = .none ∧ ∀ m, o.src2 ≠ .mem m true :=
  ⟨rfl, fun m h => by injection h with _ h; cases h⟩

/-- The highest `rip` allowed. -/
theorem witness_LaneReversalTwiceIsTheIdentity :
    let s := { State.reset with rip := 0xFFFFFFFFFFFFFFF1 }
    Admitted 512 s ∧ s.rip.toNat + 14 < 2 ^ Config.aw s.mode64 :=
  ⟨⟨⟨rfl, fun _ => rfl⟩, rfl, rfl⟩, by decide +kernel⟩

/-- Each of the three masking modes, at both lengths, completes, so that the destination is left by a run. -/
theorem witness_IntrinsicsAreTheInstructions :
    ∀ m ∈ [Writemask.none, .merging 2, .zeroing 2], ∀ i ∈ registerForms m, ∃ t, exec i (start 0xA5 []) = .next t :=
  fun m hm i hi => next_of_isSome (test_every_register_form_completes m hm i hi)

/-- The last byte of the address space. -/
theorem witness_MemoryReadsWhatWasWritten :
    Memory.wf (start 0 []).mem = true ∧ 0xFFFFFFFFFFFFFFFE + [(1 : Byte), 2].length ≤ 2 ^ 64 := by
  decide +kernel

end Sys2Proof.Tests
end

section
/-! PROOFS. The family 00_scope.md: what 32-bit modes admit (R3, R46), and memory read back after a write (R9, R17, R22). -/

namespace Sys2Proof.Machine

/-! ## 32-bit modes are a subset of 64-bit mode -/

/-- In the subset of R46 the bits `R'`, `R`, `X`, `B` and `V'` contribute 0, and `vvvv` is below 8. -/
theorem Mode32Admits.highBits {p0 p1 p2 : Byte} (h : Mode32Admits p0 p1 p2) :
    ~~~ p0.extractLsb' 4 1 = 0 ∧ ~~~ p0.extractLsb' 7 1 = 0 ∧ ~~~ p0.extractLsb' 6 1 = 0 ∧
      ~~~ p0.extractLsb' 5 1 = 0 ∧ ~~~ p2.extractLsb' 3 1 = 0 ∧ (~~~ p1.extractLsb' 3 4).toNat < 8 := by
  obtain ⟨h0, h1, h2⟩ := h
  have of_p0 : ∀ p : Byte, p.extractLsb' 4 4 = 15 → ~~~ p.extractLsb' 4 1 = 0 ∧ ~~~ p.extractLsb' 7 1 = 0 ∧
      ~~~ p.extractLsb' 6 1 = 0 ∧ ~~~ p.extractLsb' 5 1 = 0 := by decide
  have of_p1 : ∀ p : Byte, p.extractLsb' 6 1 = 1 → (~~~ p.extractLsb' 3 4).toNat < 8 := by decide
  obtain ⟨r', r, x, b⟩ := of_p0 p0 h0
  exact ⟨r', r, x, b, by rw [h2]; rfl, of_p1 p1 h1⟩

/-- The header of a decoded encoding is one of the group, and in 32-bit modes lies in the subset of R46. -/
theorem groupHeader_of_headerRefusal_none {mode64 : Bool} {e p0 p1 p2 op : Byte}
    (h : headerRefusal mode64 e p0 p1 p2 op = none) :
    GroupHeader e p0 p1 op ∧ (mode64 = false → Mode32Admits p0 p1 p2) := by
  obtain ⟨he, hmode, h0, h1, hop⟩ := headerRefusal_none h
  exact ⟨⟨he, h0, h1, hop⟩, fun hm => hmode.resolve_left (by simp [hm])⟩

/-- What 32-bit modes decode, 64-bit mode decodes alike: only the header check depends on the mode. -/
theorem decode_true_of_decode_false {bytes rest : List Byte} {i : Instr} (h : decode false bytes = .instr i rest) :
    decode true bytes = .instr i rest := by
  obtain ⟨e, p0, p1, p2, op, modrm, tail, rfl⟩ := decode_instr_cons h
  rw [decode_instr_iff] at h ⊢
  obtain ⟨hheader, hfields⟩ := h
  exact ⟨headerRefusal_eq_none (groupHeader_of_headerRefusal_none hheader).1 nofun, hfields⟩

/-- What 32-bit modes decode is well formed there: the admitted subset leaves only register numbers below 8. -/
theorem decode_false_wellFormed {bytes rest : List Byte} {i : Instr} (h : decode false bytes = .instr i rest) :
    i.wellFormed false = true := by
  obtain ⟨e, p0, p1, p2, op, modrm, tail, rfl⟩ := decode_instr_cons h
  obtain ⟨hheader, src2, imm8, mask, hsrc2, -, hmask, -, rfl⟩ := (decode_instr_iff ..).1 h
  obtain ⟨r', r, x, b, v', hv⟩ := ((groupHeader_of_headerRefusal_none hheader).2 rfl).highBits
  have reg_lt : ∀ reg : BitVec 3, ((0 : BitVec 1) ++ (0 : BitVec 1) ++ reg : BitVec 5).toNat < 8 := by decide
  have vvvv_lt : ∀ v : BitVec 4, v.toNat < 8 → ((0 : BitVec 1) ++ v : BitVec 5).toNat < 8 := by decide
  have hsrc2wf : src2.wellFormed false = true := (takeSrc2_some hsrc2).1.2 x b
  have hmaskwf : mask.wellFormed = true := (maskOf_some hmask).1
  simp only [Instr.wellFormed, formOf_operands, ShufOperands.wellFormed, vregOk, r', r, v', reg_lt,
    vvvv_lt _ hv, hsrc2wf, hmaskwf, decide_true, Bool.false_or, Bool.and_self]

/-- The general registers of a memory operand of 32-bit modes have numbers below 8 (R46). -/
theorem memOperandBelow_of_wellFormed_false {m : MemOperand} (h : m.wellFormed false = true) : MemOperandBelow 8 m := by
  cases m with
  | base b disp =>
    simp only [MemOperand.wellFormed, gprOk, Bool.false_or, Bool.and_eq_true, decide_eq_true_eq] at h
    obtain ⟨⟨hb, -⟩, -⟩ := h
    exact hb
  | disp32 d => trivial
  | sib scale index b disp =>
    simp only [MemOperand.wellFormed, gprOk, Bool.false_or, Bool.and_eq_true, decide_eq_true_eq] at h
    obtain ⟨⟨hb, hindex⟩, -⟩ := h
    exact ⟨hindex, hb⟩
  | sibNoBase scale index d =>
    simp only [MemOperand.wellFormed, gprOk, Bool.false_or, decide_eq_true_eq] at h
    exact h

/-- Settles O9: the modes differ in the header check alone, and what passes it in 32-bit modes is well formed there. -/
theorem mode32IsASubsetOfMode64 : Obligations.Mode32IsASubsetOfMode64 := by
  intro bytes i rest h
  have hwf := decode_false_wellFormed h
  simp only [Instr.wellFormed, ShufOperands.wellFormed, vregOk, Bool.false_or, Bool.and_eq_true,
    decide_eq_true_eq] at hwf
  obtain ⟨⟨⟨hd, hs1⟩, hsrc2⟩, -⟩ := hwf
  refine ⟨decode_true_of_decode_false h, hd, hs1, fun r hr => ?_, fun m b hm => ?_⟩
  · rw [hr] at hsrc2
    simpa [Src2.wellFormed, vregOk] using hsrc2
  · rw [hm] at hsrc2
    exact memOperandBelow_of_wellFormed_false hsrc2

/-! ## Memory after a write -/

/-- In a canonical memory the bytes written read back and every other byte reads as before (R9). -/
theorem Memory.read_writeBytes {bytes : List Byte} {a b : Nat} {m : Memory} (hm : m.wf = true)
    (ha : a + bytes.length ≤ 2 ^ 64) :
    (m.writeBytes a bytes).read b =
      if a ≤ b ∧ b < a + bytes.length then bytes.getD (b - a) 0 else m.read b := by
  induction bytes generalizing a m with
  | nil => rw [if_neg (by simp)]; rfl
  | cons v vs ih =>
    rw [List.length_cons] at ha ⊢
    have hread : (m.writeBytes a (v :: vs)).read b =
        if a + 1 ≤ b ∧ b < a + 1 + vs.length then vs.getD (b - (a + 1)) 0
        else if b = a then v else m.read b := by
      rw [← Memory.read_write_from hm]
      exact ih (Memory.write_wf hm (by omega)) (by omega)
    rw [hread]
    rcases lt_trichotomy b a with hlt | rfl | hgt
    · rw [if_neg (by omega), if_neg (by omega), if_neg (by omega)]
    · rw [if_neg (by omega), if_pos rfl, if_pos (by omega), Nat.sub_self, List.getD_cons_zero]
    · have hsub : b - a = b - (a + 1) + 1 := by omega
      rw [if_neg (show b ≠ a by omega), hsub, List.getD_cons_succ]
      exact if_congr (by omega) rfl rfl

/-- Settles O47: each write keeps the canonical form, and the bytes written read back by induction on them. -/
theorem memoryReadsWhatWasWritten : Obligations.MemoryReadsWhatWasWritten :=
  fun _ _ _ hm ha => ⟨Memory.writeBytes_wf hm ha, fun _ => Memory.read_writeBytes hm ha⟩

end Sys2Proof.Machine
end

section
/-! PROOFS. The family 10_state.md: reset, what every step and every run keep (R14, R17, R18), where a step or a form is
refused (R14), the frame of a form, and what of the registers a form does not read. -/

namespace Sys2Proof.Machine

/-! ## Whole-machine rules -/

/-- Settles O3: a step changes no memory, and it completes only where the new `rip` fits in `AW` bits. -/
theorem stepKeepsTheInvariant : Obligations.StepKeepsTheInvariant := by
  rintro s t ⟨hmem, -⟩ h
  obtain ⟨i, rest, -, hc, rfl⟩ := step_next_inv h
  have ⟨_, _, hfits⟩ := hc
  refine ⟨hmem, ?_⟩
  rw [completedState_rip_toNat hc]
  exact hfits

/-- One step changes nothing but the vector registers and `rip` (R18). -/
theorem step_sameBesideVectors {s t : State} (h : step s = .next t) : SameBesideVectors s t := by
  obtain ⟨i, rest, -, -, rfl⟩ := step_next_inv h
  exact completedState_sameBesideVectors i s

/-- Settles O4, by induction on the run: the relation of one step is reflexive and transitive. -/
theorem runWritesOnlyVectorsAndRip : Obligations.RunWritesOnlyVectorsAndRip :=
  run_induction (R := fun _ s t => SameBesideVectors s t) sameBesideVectors_refl
    fun _ _ _ _ hstep hrun => sameBesideVectors_trans (step_sameBesideVectors hstep) hrun

/-- One step moves `rip` forward by the length of an instruction, without a wrap (R14, R44). -/
theorem step_rip_bounds {s t : State} (h : step s = .next t) :
    s.rip.toNat + 7 ≤ t.rip.toNat ∧ t.rip.toNat ≤ s.rip.toNat + 12 := by
  obtain ⟨i, rest, -, hc, rfl⟩ := step_next_inv h
  have hrip := completedState_rip_toNat hc
  have hlen := instr_ilen_bounds i
  omega

/-- Settles O5, by induction on the run: the bounds of the single steps add up. -/
theorem runMovesRipForward : Obligations.RunMovesRipForward := by
  refine run_induction
    (R := fun n s t => s.rip.toNat + 7 * n ≤ t.rip.toNat ∧ t.rip.toNat ≤ s.rip.toNat + 12 * n) ?_ ?_
  · intro s
    simp
  · intro n s u t hstep hrun
    have := step_rip_bounds hstep
    omega

/-! ## Refusals at the top of the address space -/

/-- Where the decoder refuses the fetched bytes, the step is refused. -/
theorem step_refused_of_decode {s : State} (h : ∃ r, decode s.mode64 (fetchBytes s) = .refused r) :
    ∃ r, step s = .refused (.encoding r) := by
  obtain ⟨r, h⟩ := h
  exact ⟨r, by rw [step, h]⟩

/-- An encoding has at least seven bytes (R44). -/
theorem seven_le_encodedLength (modrm : Byte) (tail : List Byte) : 7 ≤ encodedLength modrm tail := by
  simp only [encodedLength]
  omega

/-- Bytes that end before the length that ModRM and SIB announce are refused: by the header, or because operand 3 with
`imm8` takes all of that length. -/
theorem decode_refused_of_lt_encodedLength {mode64 : Bool} {e p0 p1 p2 op modrm : Byte} {tail : List Byte}
    (h : 6 + tail.length < encodedLength modrm tail) :
    ∃ r, decode mode64 (e :: p0 :: p1 :: p2 :: op :: modrm :: tail) = .refused r := by
  cases hheader : headerRefusal mode64 e p0 p1 p2 op with
  | some r => exact ⟨r, by simp only [decode, hheader]⟩
  | none =>
    refine ⟨.truncated, ?_⟩
    cases hsrc2 : takeSrc2 (~~~ p0.extractLsb' 6 1) (~~~ p0.extractLsb' 5 1) (p2.extractLsb' 4 1 == 1) modrm tail with
    | none => simp only [decode, hheader, hsrc2]
    | some taken =>
      obtain ⟨src2, rest⟩ := taken
      have hlen := encodedLength_of_some hsrc2
      obtain rfl : rest = [] := List.eq_nil_of_length_eq_zero (by omega)
      simp only [decode, hheader, hsrc2]

/-- Fewer than seven bytes are refused: there is no ModRM, or no byte after it. -/
theorem decode_refused_of_length_lt_seven {mode64 : Bool} {bytes : List Byte} (h : bytes.length < 7) :
    ∃ r, decode mode64 bytes = .refused r := by
  match bytes, h with
  | [], _ | [_], _ | [_, _], _ | [_, _, _], _ | [_, _, _, _], _ | [_, _, _, _, _], _ => exact ⟨.truncated, rfl⟩
  | _ :: _ :: _ :: _ :: _ :: modrm :: tail, h =>
    refine decode_refused_of_lt_encodedLength (lt_of_lt_of_le ?_ (seven_le_encodedLength modrm tail))
    simp only [List.length_cons] at h
    omega

/-- Settles O18: a step fetches only the bytes below the top, so the decoder finds the instruction cut short. -/
theorem straddlingInstructionIsRefused : Obligations.StraddlingInstructionIsRefused := by
  intro s
  have hlen := fetchBytes_length s
  refine ⟨fun htop => step_refused_of_decode (decode_refused_of_length_lt_seven (by omega)), ?_⟩
  intro e p0 p1 p2 op modrm tail hbytes htop
  have hmax := encodedLength_le modrm tail
  rw [hbytes] at hlen
  simp only [List.length_cons] at hlen
  refine step_refused_of_decode ?_
  rw [hbytes]
  exact decode_refused_of_lt_encodedLength (by omega)

/-- Settles O23: the one refusal of a form is that of `rip + ilen`. -/
theorem refusedOnlyAtTheTop : Obligations.RefusedOnlyAtTheTop := by
  intro i s r h
  obtain ⟨hr, -, -, hfits⟩ := (exec_refused_iff i s r).1 h
  exact ⟨hr, Nat.le_of_not_lt hfits⟩

/-! ## What a form writes and what it does not read -/

/-- Settles O32: a completed form leaves `completedState`, which has the frame. -/
theorem completedFormWritesOnlyDestinationAndRip : Obligations.CompletedFormWritesOnlyDestinationAndRip := by
  intro i s t h
  obtain ⟨-, rfl⟩ := (exec_next_iff i s t).1 h
  exact ⟨rfl, completedState_frame i s⟩

/-- Masks that agree on the elements of a value give the same masked value (R54). -/
theorem applyMask_congr {vl esz : Nat} {takes takes' : Nat → Bool} (hesz : 0 < esz) (hfill : esz * (vl / esz) = vl)
    (h : ∀ j, j < vl / esz → takes' j = takes j) (zeroes : Bool) (tmp old : BitVec vl) :
    applyMask vl esz takes' zeroes tmp old = applyMask vl esz takes zeroes tmp old := by
  refine eq_of_elemAt esz hesz _ _ (vl / esz) hfill.ge fun j hj => ?_
  rw [elemAt_applyMask _ _ _ _ _ _ _ hj, elemAt_applyMask _ _ _ _ _ _ _ hj, h j hj]

/-- A writemask reads bit `j` of an opmask register for element `j`, and no other bit (R54). -/
theorem maskTakes_congr {s t : State} {j : Nat} (h : ∀ r, (readK t r).getLsbD j = (readK s r).getLsbD j)
    (mask : Writemask) : maskTakes t mask j = maskTakes s mask j := by
  cases mask with
  | none => rfl
  | merging k => exact h k
  | zeroing k => exact h k

/-- The value written is the same for opmasks that agree on the elements of the form (R12, R54). -/
theorem newDest_withK (i : Instr) (s : State) (k' : Vector (BitVec Config.kw) 8)
    (h : ∀ (r : BitVec 3) (j : Nat), j < i.vl / i.esz →
      (readK { s with k := k' } r).getLsbD j = (readK s r).getLsbD j) :
    newDest i.vl i.esz (laneSelection i) i.operands { s with k := k' } =
      newDest i.vl i.esz (laneSelection i) i.operands s := by
  obtain ⟨hesz, hfill⟩ := instr_elems_fill i
  have htakes : ∀ j, j < i.vl / i.esz →
      maskTakes { s with k := k' } i.operands.mask j = maskTakes s i.operands.mask j :=
    fun j hj => maskTakes_congr (fun r => h r j hj) i.operands.mask
  exact congrArg (BitVec.setWidth Config.maxVL) (applyMask_congr hesz hfill htakes _ _ _)

/-- Settles O38: whether a form completes does not depend on the opmasks, and the value written only on the bits of the
elements. -/
theorem opmaskBitsAboveTheElementsUnread : Obligations.OpmaskBitsAboveTheElementsUnread := by
  intro i s t k' hk h
  obtain ⟨hc, rfl⟩ := (exec_next_iff i s t).1 h
  have hc' : Completes i { s with k := k' } := hc
  refine (exec_next_iff i _ _).2 ⟨hc', ?_⟩
  simp only [completedState, writeBack, writeZmm, newDest_withK i s k' hk]

/-- Operand 3 reads the low `vl` bits of a vector register and no other (R51). -/
theorem secondSource_withZmm (vl esz : Nat) (o : ShufOperands) (s : State) (z' : Vector ZmmWord 32)
    (h : ∀ r, (readZmm { s with zmm := z' } r).extractLsb' 0 vl = (readZmm s r).extractLsb' 0 vl) :
    secondSource vl esz o { s with zmm := z' } = secondSource vl esz o s := by
  unfold secondSource
  split
  · exact h _
  · rfl
  · rfl

/-- The value written is the same for vector registers that agree in their low `vl` bits (R51, R52). -/
theorem newDest_withZmm (vl esz : Nat) (sel : LaneSelection vl) (o : ShufOperands) (s : State)
    (z' : Vector ZmmWord 32)
    (h : ∀ r, (readZmm { s with zmm := z' } r).extractLsb' 0 vl = (readZmm s r).extractLsb' 0 vl) :
    newDest vl esz sel o { s with zmm := z' } = newDest vl esz sel o s := by
  have hmask : maskTakes { s with zmm := z' } o.mask = maskTakes s o.mask := rfl
  unfold newDest
  rw [hmask, h, h, secondSource_withZmm vl esz o s z' h]

/-- Settles O41: whether a form completes does not depend on the vector registers, and the value written only on their
low `VL` bits. -/
theorem upperHalvesOfSourcesUnreadAt256 : Obligations.UpperHalvesOfSourcesUnreadAt256 := by
  intro i s t z' hvl hz h
  obtain ⟨hc, rfl⟩ := (exec_next_iff i s t).1 h
  have hc' : Completes i { s with zmm := z' } := hc
  rw [← hvl] at hz
  refine ⟨completedState i { s with zmm := z' }, (exec_next_iff i _ _).2 ⟨hc', rfl⟩, ?_⟩
  rw [readZmm_completedState, readZmm_completedState, if_pos rfl, if_pos rfl]
  exact newDest_withZmm i.vl i.esz (laneSelection i) i.operands s z' hz

/-! ## Reset -/

/-- No exception is raised at reset before the operands are read: the parameters are those of log 3. -/
theorem reset_admitted (vl : Nat) : Admitted vl State.reset := ⟨⟨rfl, fun _ => rfl⟩, rfl, rfl⟩

/-- Settles O1: each register file by its numbers, memory and oracle because they list nothing. -/
theorem resetLeavesTheLoggedValues : Obligations.ResetLeavesTheLoggedValues := by
  have hzmm : ∀ r : BitVec 5, readZmm State.reset r = 0 := fun r => Vector.getElem_replicate r.isLt
  have hk : ∀ r : BitVec 3, readK State.reset r = 0 := fun r => Vector.getElem_replicate r.isLt
  have hgpr : ∀ r : BitVec 4, readGpr State.reset r = if r = 2 then 0x600 else 0 := by decide
  exact ⟨hzmm, hk, hgpr, rfl, rfl, rfl, fun _ => rfl, reset_admitted 256, reset_admitted 512, rfl, fun _ _ => rfl⟩

/-- Settles O2: memory is empty, and the reset `rip` has 32 bits. -/
theorem resetMeetsTheInvariant : Obligations.ResetMeetsTheInvariant := ⟨reset_mem_wf, by decide⟩

end Sys2Proof.Machine
end

section
/-! PROOFS. The family 20_memory.md: the address and the size of the data read (R20), what of memory a form reads (R20,
R21), and the fault of that read, which no writemask suppresses (R25, R72). -/

namespace Sys2Proof.Machine

/-! ## The data read -/

/-- The sizes of R20 in bytes: 32 or 64 for a whole operand, 4 or 8 for a broadcast element. -/
theorem instr_operandBytes (i : Instr) :
    operandBytes i.vl i.esz false = (if i.vl = 256 then 32 else 64) ∧
      operandBytes i.vl i.esz true = (if i.esz = 32 then 4 else 8) := by
  constructor
  · rcases instr_vl_eq i with h | h <;> simp [operandBytes, h]
  · rcases instr_esz_eq i with h | h <;> simp [operandBytes, h]

/-- A register second source reads no memory (R21). -/
theorem dataAccess_of_reg {o : ShufOperands} {r : BitVec 5} (h : o.src2 = .reg r) (vl esz : Nat) (s : State) :
    dataAccess vl esz o s = none := by rw [dataAccess, h]

/-- A memory operand is read once, at its effective address (R20). -/
theorem dataAccess_of_mem {o : ShufOperands} {m : MemOperand} {bcast : Bool} (h : o.src2 = .mem m bcast)
    (vl esz : Nat) (s : State) :
    dataAccess vl esz o s =
      some (effectiveAddress (operandBytes vl esz bcast) o.ilen m s, operandBytes vl esz bcast) := by
  rw [dataAccess, h]

/-- Settles O34: a memory operand is read at its effective address, in the size that the form gives it. -/
theorem operandSizes : Obligations.OperandSizes := by
  intro i s
  obtain ⟨hfull, hbcast⟩ := instr_operandBytes i
  split
  case h_1 r hr => exact dataAccess_of_reg hr i.vl i.esz s
  case h_2 m hm =>
    rw [← hfull]
    exact dataAccess_of_mem hm i.vl i.esz s
  case h_3 m hm =>
    rw [← hbcast]
    exact dataAccess_of_mem hm i.vl i.esz s

/-! ## No byte outside the operand has an effect -/

/-- Element functions that agree below the count assemble the same value. -/
theorem ofElems_congr {n w : Nat} {f g : Nat → BitVec w} {count : Nat} (h : ∀ j, j < count → f j = g j) :
    ofElems n w f count = ofElems n w g count := by
  induction count with
  | zero => rfl
  | succ count ih =>
    rw [ofElems, ofElems, ih fun j hj => h j (by omega), h count (by omega)]

/-- The memory `m'` serves the read of `n` bytes at `ea` as that of `s` does: it has the same bytes there and, where the
read reaches beyond the top of the address space, is the same memory (log 8). -/
def SameOperandBytes (s : State) (m' : Memory) (ea : Word64) (n : Nat) : Prop :=
  (∀ a, ea.toNat ≤ a → a < ea.toNat + n → m'.read a = s.mem.read a) ∧
    (2 ^ Config.aw s.mode64 < ea.toNat + n → m' = s.mem)

/-- A byte of the operand is the same: below the top by its value, from there on because the memory is. -/
theorem memByte_withMem {s : State} {m' : Memory} {ea : Word64} {n j : Nat} (h : SameOperandBytes s m' ea n)
    (hj : j < n) : memByte { s with mem := m' } (ea.toNat + j) = memByte s (ea.toNat + j) := by
  obtain ⟨hread, htop⟩ := h
  by_cases hlow : ea.toNat + j < 2 ^ Config.aw s.mode64
  · simp only [memByte, if_pos hlow]
    exact hread (ea.toNat + j) (by omega) (by omega)
  · rw [htop (by omega)]

/-- A read depends on the bytes it covers and no others (R22). -/
theorem memRead_withMem {w : Nat} {s : State} {m' : Memory} {ea : Word64} (h : SameOperandBytes s m' ea (w / 8)) :
    memRead w ea { s with mem := m' } = memRead w ea s :=
  ofElems_congr fun _ hj => memByte_withMem h hj

/-- The value of operand 3 depends on memory through the bytes of the data read alone (R51). -/
theorem secondSource_withMem {vl esz : Nat} {o : ShufOperands} {s : State} {m' : Memory}
    (h : ∀ ea n, dataAccess vl esz o s = some (ea, n) → SameOperandBytes s m' ea n) :
    secondSource vl esz o { s with mem := m' } = secondSource vl esz o s := by
  unfold secondSource
  split
  case h_1 r hr => rfl
  case h_2 m hm => exact memRead_withMem (h _ _ (dataAccess_of_mem hm vl esz s))
  case h_3 m hm =>
    exact congrArg (broadcast vl esz) (memRead_withMem (h _ _ (dataAccess_of_mem hm vl esz s)))

/-- The value written depends on memory through the bytes of the data read alone (R51, R56). -/
theorem newDest_withMem {vl esz : Nat} {o : ShufOperands} {s : State} {m' : Memory} (sel : LaneSelection vl)
    (h : ∀ ea n, dataAccess vl esz o s = some (ea, n) → SameOperandBytes s m' ea n) :
    newDest vl esz sel o { s with mem := m' } = newDest vl esz sel o s := by
  have hmask : maskTakes { s with mem := m' } o.mask = maskTakes s o.mask := rfl
  unfold newDest
  rw [hmask, secondSource_withMem h]
  rfl

/-- Settles O42: whether a form completes does not depend on memory, and the value written only through operand 3. -/
theorem onlyTheOperandsBytesAreRead : Obligations.OnlyTheOperandsBytesAreRead := by
  intro i s t m' hm h
  obtain ⟨hc, rfl⟩ := (exec_next_iff i s t).1 h
  have hc' : Completes i { s with mem := m' } := hc
  refine (exec_next_iff i _ _).2 ⟨hc', ?_⟩
  simp only [completedState, writeBack, writeZmm, newDest_withMem (laneSelection i) hm]

/-! ## The writemask suppresses no fault -/

section withOperands
variable (i : Instr) (o : ShufOperands)

@[simp] theorem withOperands_vl : (withOperands i o).vl = i.vl := by cases i <;> rfl
@[simp] theorem withOperands_esz : (withOperands i o).esz = i.esz := by cases i <;> rfl
@[simp] theorem withOperands_operands : (withOperands i o).operands = o := by cases i <;> rfl

end withOperands

/-- The fault of the data read is the same under every writemask (R25): the mask has no part in the access. -/
theorem operandFault_withMask (vl esz : Nat) (o : ShufOperands) (mask : Writemask) (s : State) :
    operandFault vl esz { o with mask := mask } s = operandFault vl esz o s := rfl

/-- Settles O25: a form faults at admission, which reads no operand, or at the data read, which reads no writemask. -/
theorem maskSuppressesNoFault : Obligations.MaskSuppressesNoFault := by
  intro i mask s f h
  rw [exec_fault_iff] at h ⊢
  rw [withOperands_vl, withOperands_esz, withOperands_operands, operandFault_withMask]
  exact h

end Sys2Proof.Machine
end

section
/-! PROOFS. The family 30_encoding.md: decoding an encoding (R32 to R46), the fields of what decodes, the encodings that
are refused (R45), the effective address (R43), the immediate (R42) and the intrinsics (R48). -/

namespace Sys2Proof.Machine

/-! ## The encoder's bytes, read back -/

/-- The fields of `P0` as the encoder writes it (R33, R37, R39). -/
theorem p0Byte_fields (o : ShufOperands) :
    ~~~ (p0Byte o).extractLsb' 7 1 = o.d.extractLsb' 3 1 ∧ ~~~ (p0Byte o).extractLsb' 6 1 = o.src2.fields.x ∧
      ~~~ (p0Byte o).extractLsb' 5 1 = o.src2.fields.b ∧ ~~~ (p0Byte o).extractLsb' 4 1 = o.d.extractLsb' 4 1 ∧
      (p0Byte o).extractLsb' 2 2 = 0 ∧ (p0Byte o).extractLsb' 0 2 = 3 := p0_fields ..

/-- The fields of `P1` as the encoder writes it (R33, R38). -/
theorem p1Byte_fields (w : BitVec 1) (o : ShufOperands) :
    (p1Byte w o).extractLsb' 7 1 = w ∧ ~~~ (p1Byte w o).extractLsb' 3 4 = o.s1.extractLsb' 0 4 ∧
      (p1Byte w o).extractLsb' 2 1 = 1 ∧ (p1Byte w o).extractLsb' 0 2 = 1 := p1_fields ..

/-- The fields of `P2` as the encoder writes it (R33, R35, R38, R40, R41). -/
theorem p2Byte_fields (ll : BitVec 2) (o : ShufOperands) :
    (p2Byte ll o).extractLsb' 7 1 = o.mask.zBit ∧ (p2Byte ll o).extractLsb' 5 2 = ll ∧
      (p2Byte ll o).extractLsb' 4 1 = o.src2.bcastBit ∧ ~~~ (p2Byte ll o).extractLsb' 3 1 = o.s1.extractLsb' 4 1 ∧
      (p2Byte ll o).extractLsb' 0 3 = o.mask.aaa := p2_fields ..

/-- The fields of ModRM as the encoder writes it (R33). -/
theorem modrmByte_fields (o : ShufOperands) :
    (modrmByte o).extractLsb' 6 2 = o.src2.fields.mod ∧ (modrmByte o).extractLsb' 3 3 = o.d.extractLsb' 0 3 ∧
      (modrmByte o).extractLsb' 0 3 = o.src2.fields.rm := modrm_fields ..

/-- An instruction is the form that its own opcode byte, `W` and `L'L` select (R35, R36). -/
theorem formOf_instr (i : Instr) : formOf i.opcode i.wBit i.llBits i.operands = i := by
  cases i <;> rfl

/-- A second source of 32-bit modes is one of 64-bit mode. -/
theorem src2_wellFormed_true {mode64 : Bool} {src2 : Src2} (h : src2.wellFormed mode64 = true) :
    src2.wellFormed true = true := by
  cases src2 with
  | reg r => rfl
  | mem m bcast => exact memOperand_wellFormed_true (m := m) h

/-- The encoder sets the broadcast bit for no register second source (R45). -/
theorem not_register_and_bcastBit (src2 : Src2) : ¬ (src2.fields.mod = 3 ∧ (src2.bcastBit == 1) = true) := by
  have mod_ne : ∀ disp : Disp, disp.mod ≠ 3 := by intro disp; cases disp <;> simp [Disp.mod]
  rcases src2 with r | ⟨⟨b, disp⟩ | d | ⟨scale, index, b, disp⟩ | ⟨scale, index, d⟩, bcast⟩
  · simp [Src2.bcastBit]
  · exact fun h => mod_ne disp h.1
  · simp [Src2.fields]
  · exact fun h => mod_ne disp h.1
  · simp [Src2.fields]

/-- The header that the encoder writes passes the decoder's check in every mode the instruction is well formed in. -/
theorem headerRefusal_encode {mode64 : Bool} {i : Instr} (h : i.wellFormed mode64 = true) :
    headerRefusal mode64 0x62 (p0Byte i.operands) (p1Byte i.wBit i.operands) (p2Byte i.llBits i.operands) i.opcode =
      none := by
  obtain ⟨-, -, -, -, -, hmm⟩ := p0Byte_fields i.operands
  obtain ⟨-, -, -, hpp⟩ := p1Byte_fields i.wBit i.operands
  have hop : i.opcode = 0x23 ∨ i.opcode = 0x43 := by cases i <;> simp [Instr.opcode]
  refine headerRefusal_eq_none ⟨rfl, hmm, hpp, hop⟩ fun hmode => ?_
  subst hmode
  exact headerBits_mode32 i.operands i.wBit i.llBits h

/-- The encoder writes no reserved prefix bit, and `L'L` is `01b` or `10b` (R68, R70). -/
theorem headerInvalid_encode (i : Instr) :
    headerInvalid (p0Byte i.operands) (p1Byte i.wBit i.operands) (p2Byte i.llBits i.operands) = false := by
  obtain ⟨-, -, -, -, hres0, -⟩ := p0Byte_fields i.operands
  obtain ⟨-, -, hres1, -⟩ := p1Byte_fields i.wBit i.operands
  obtain ⟨-, hll, -⟩ := p2Byte_fields i.llBits i.operands
  rw [headerInvalid, hres0, hres1, hll]
  cases i <;> rfl

/-- Settles O7: every field the decoder reads is the one the encoder wrote, and the header check passes. -/
theorem decodeOfEncode : Obligations.DecodeOfEncode := by
  intro mode64 i rest hwf
  have hheader := headerRefusal_encode hwf
  have hinvalid := headerInvalid_encode i
  simp only [Instr.wellFormed, ShufOperands.wellFormed, Bool.and_eq_true] at hwf
  obtain ⟨⟨-, hsrc2⟩, hmask⟩ := hwf
  obtain ⟨hr, hx, hb, hr', -, -⟩ := p0Byte_fields i.operands
  obtain ⟨hw, hv, -, -⟩ := p1Byte_fields i.wBit i.operands
  obtain ⟨hz, hll, hbcast, hv', haaa⟩ := p2Byte_fields i.llBits i.operands
  obtain ⟨hmod, hreg, hrm⟩ := modrmByte_fields i.operands
  have htake := takeSrc2_fields i.operands.src2 (modrmByte i.operands) (i.operands.imm8 :: rest)
    (src2_wellFormed_true hsrc2) hmod hrm
  simp only [encode, List.cons_append, List.append_assoc, List.nil_append]
  refine (decode_instr_iff ..).2
    ⟨hheader, i.operands.src2, i.operands.imm8, i.operands.mask, ?_, ?_, ?_, hinvalid, ?_⟩
  · rw [hx, hb, hbcast]
    exact htake
  · rw [hmod, hbcast]
    exact not_register_and_bcastBit i.operands.src2
  · rw [hz, haaa]
    exact maskOf_bits i.operands.mask hmask
  · rw [hr, hr', hw, hv, hv', hll, hreg, reg5_split, reg5_split4]
    exact (formOf_instr i).symm

/-! ## The fields of what decodes -/

/-- Settles O8: in 32-bit modes by the admitted subset, in 64-bit mode because operand 3 and the writemask are. -/
theorem decodedIsWellFormed : Obligations.DecodedIsWellFormed := by
  intro mode64 bytes i rest h
  cases mode64 with
  | false => exact decode_false_wellFormed h
  | true =>
    obtain ⟨e, p0, p1, p2, op, modrm, tail, rfl⟩ := decode_instr_cons h
    obtain ⟨-, src2, imm8, mask, hsrc2, -, hmask, -, rfl⟩ := (decode_instr_iff ..).1 h
    obtain ⟨⟨hsrc2wf, -⟩, -⟩ := takeSrc2_some hsrc2
    obtain ⟨hmaskwf, -⟩ := maskOf_some hmask
    simp only [Instr.wellFormed, formOf_operands, ShufOperands.wellFormed, vregOk, hsrc2wf, hmaskwf, Bool.true_or,
      Bool.and_self]

/-- The length of the form selected is that of its operands (R44). -/
theorem formOf_ilen (op : Byte) (w : BitVec 1) (ll : BitVec 2) (o : ShufOperands) :
    (formOf op w ll o).ilen = 6 + o.src2.tailLength + 1 := by
  rw [Instr.ilen, formOf_operands, ShufOperands.ilen]

/-- Settles O10: what operand 3 takes from the bytes, and the one byte of `imm8`. -/
theorem lengthFromModrmAndSib : Obligations.LengthFromModrmAndSib := by
  intro mode64 e p0 p1 p2 op modrm tail i rest h
  obtain ⟨-, src2, imm8, mask, hsrc2, -, -, -, hi⟩ := (decode_instr_iff ..).1 h
  obtain ⟨-, hlen, htotal, hdrop, -⟩ := takeSrc2_some hsrc2
  have hilen : i.ilen = 6 + src2.tailLength + 1 := by rw [hi, formOf_ilen]
  have hrest : rest = tail.drop (src2.tailLength + 1) := by
    rw [← List.drop_drop, ← hdrop, List.drop_one, List.tail_cons]
  rw [List.length_cons] at htotal
  refine ⟨by rw [hilen, hlen]; omega, fun hmod => ?_, fun _ => instr_ilen_bounds i, by omega, ?_⟩
  · simp [hilen, hlen, hmod]
  · rw [hrest, hilen, show 6 + src2.tailLength + 1 - 6 = src2.tailLength + 1 by omega]

/-- A number whose two top bits are written inverted: `16*(1 - r') + 8*(1 - r) + reg` (R37). -/
theorem toNat_invertedHighBits (r' r : BitVec 1) (reg : BitVec 3) :
    (~~~ r' ++ ~~~ r ++ reg : BitVec 5).toNat = 16 * (1 - r'.toNat) + 8 * (1 - r.toNat) + reg.toNat := by
  revert r' r reg; decide

/-- A number written inverted as a whole: `16*(1 - v') + (15 - vvvv)` (R38). -/
theorem toNat_inverted (v' : BitVec 1) (vvvv : BitVec 4) :
    (~~~ v' ++ ~~~ vvvv : BitVec 5).toNat = 16 * (1 - v'.toNat) + (15 - vvvv.toNat) := by
  revert v' vvvv; decide

/-- A general register number whose top bit is written inverted (R43). -/
theorem toNat_invertedTopBit (b : BitVec 1) (low : BitVec 3) :
    (~~~ b ++ low : BitVec 4).toNat = 8 * (1 - b.toNat) + low.toNat := by
  revert b low; decide

/-- Settles O11: the numbers that the inverted fields stand for. -/
theorem registerNumbersFromFields : Obligations.RegisterNumbersFromFields := by
  intro mode64 e p0 p1 p2 op modrm tail i rest h
  obtain ⟨-, src2, imm8, mask, -, -, -, -, rfl⟩ := (decode_instr_iff ..).1 h
  rw [formOf_operands]
  exact ⟨toNat_invertedHighBits .., toNat_inverted ..⟩

/-! ### The memory operand -/

/-- A `disp32` is the four bytes at the head, little-endian (R22). -/
theorem takeDisp32_disp32Bytes {l rest : List Byte} {d : BitVec 32} (h : takeDisp32 l = some (d, rest)) :
    Disp32Bytes l d := by
  match l, h with
  | b0 :: b1 :: b2 :: b3 :: _, h =>
    simp only [takeDisp32, Option.some.injEq, Prod.mk.injEq] at h
    obtain ⟨rfl, -⟩ := h
    obtain ⟨h0, h1, h2, h3⟩ := le32_bytes b0 b1 b2 b3
    intro m hm
    match m, hm with
    | 0, _ => exact congrArg some h0.symm
    | 1, _ => exact congrArg some h1.symm
    | 2, _ => exact congrArg some h2.symm
    | 3, _ => exact congrArg some h3.symm

/-- The displacement read is the one that `mod` announces, at the head of the bytes (R43). -/
theorem takeDisp_dispFromFields {mod : BitVec 2} {l rest : List Byte} {disp : Disp}
    (h : takeDisp mod l = some (disp, rest)) (hmod : mod ≠ 3) : DispFromFields mod l disp := by
  unfold takeDisp at h
  split_ifs at h with h0 h1
  · cases h
    exact h0
  · split at h
    next d r => cases h; exact ⟨h1, rfl⟩
    next => cases h
  · have h2 : mod = 2 := by revert mod; decide
    split at h
    next d r hd => cases h; exact ⟨h2, takeDisp32_disp32Bytes hd⟩
    next => cases h

/-- The memory operand read is the one that the fields name, row by row of R43. -/
theorem takeMem_memOperandFromFields {p0 modrm : Byte} {tail rest : List Byte} {m : MemOperand}
    (h : takeMem (~~~ p0.extractLsb' 6 1) (~~~ p0.extractLsb' 5 1) (modrm.extractLsb' 6 2) (modrm.extractLsb' 0 3)
      tail = some (m, rest)) (hmod : modrm.extractLsb' 6 2 ≠ 3) : MemOperandFromFields p0 modrm tail m := by
  unfold takeMem at h
  split_ifs at h with hsib hdisp32
  · split at h
    next => cases h
    next sib tail =>
      dsimp only at h
      split_ifs at h with hnobase
      · split at h
        next d r hd =>
          cases h
          exact ⟨hnobase.1, hsib, sib, rfl, hnobase.2, rfl, toNat_invertedTopBit .., takeDisp32_disp32Bytes hd⟩
        next => cases h
      · split at h
        next disp r hd =>
          cases h
          exact ⟨hsib, sib, rfl, hnobase, rfl, toNat_invertedTopBit .., toNat_invertedTopBit ..,
            takeDisp_dispFromFields hd hmod⟩
        next => cases h
  · split at h
    next d r hd => cases h; exact ⟨hdisp32.1, hdisp32.2, takeDisp32_disp32Bytes hd⟩
    next => cases h
  · split at h
    next disp r hd => cases h; exact ⟨hsib, hdisp32, toNat_invertedTopBit .., takeDisp_dispFromFields hd hmod⟩
    next => cases h

/-- A memory second source comes from the fields of the memory operand (R39). -/
theorem takeMem_of_takeSrc2_mem {x b : BitVec 1} {bc bcast : Bool} {modrm : Byte} {tail rest : List Byte}
    {m : MemOperand} (h : takeSrc2 x b bc modrm tail = some (.mem m bcast, rest)) :
    takeMem x b (modrm.extractLsb' 6 2) (modrm.extractLsb' 0 3) tail = some (m, rest) := by
  unfold takeSrc2 at h
  dsimp only at h
  split_ifs at h with hmod
  · cases h
  · split at h
    next m' r hm => cases h; exact hm
    next => cases h

/-- Settles O12: operand 3 field by field, the writemask bits, and `imm8` right after operand 3. -/
theorem otherOperandsFromFields : Obligations.OtherOperandsFromFields := by
  intro mode64 e p0 p1 p2 op modrm tail i rest h
  obtain ⟨-, src2, imm8, mask, hsrc2, -, hmask, -, hi⟩ := (decode_instr_iff ..).1 h
  obtain ⟨-, -, -, hdrop, hkind⟩ := takeSrc2_some hsrc2
  have hilen : i.ilen = 6 + src2.tailLength + 1 := by rw [hi, formOf_ilen]
  have himm : tail[i.ilen - 7]? = some imm8 := by
    rw [hilen, show 6 + src2.tailLength + 1 - 7 = src2.tailLength by omega, ← List.head?_drop, ← hdrop,
      List.head?_cons]
  subst hi
  rw [formOf_operands]
  refine ⟨?_, (maskOf_some hmask).2, himm⟩
  cases src2 with
  | reg r =>
    obtain ⟨hmod, rfl⟩ := hkind
    exact ⟨hmod, toNat_invertedHighBits ..⟩
  | mem m bcast =>
    obtain ⟨hmod, rfl⟩ := hkind
    exact ⟨hmod, by simp, takeMem_memOperandFromFields (takeMem_of_takeSrc2_mem hsrc2) hmod⟩

/-! ### The header -/

/-- The fields that select the form are those of the form selected (R35, R36). -/
theorem formOf_fields {op : Byte} {w : BitVec 1} {ll : BitVec 2} (hop : op = 0x23 ∨ op = 0x43) (hll : ll = 1 ∨ ll = 2)
    (o : ShufOperands) :
    (formOf op w ll o).opcode = op ∧ (formOf op w ll o).wBit = w ∧ (formOf op w ll o).llBits = ll := by
  have hw : w = 0 ∨ w = 1 := by revert w; decide
  rcases hop with rfl | rfl <;> rcases hw with rfl | rfl <;> rcases hll with rfl | rfl <;> exact ⟨rfl, rfl, rfl⟩

/-- What a header that is not invalid has (R68, R70 a to c). -/
theorem headerInvalid_false {p0 p1 p2 : Byte} (h : headerInvalid p0 p1 p2 = false) :
    p0.extractLsb' 2 2 = 0 ∧ p1.extractLsb' 2 1 = 1 ∧ (p2.extractLsb' 5 2 = 1 ∨ p2.extractLsb' 5 2 = 2) := by
  simp only [headerInvalid, Bool.or_eq_false_iff, bne_eq_false_iff_eq, beq_eq_false_iff_ne] at h
  obtain ⟨⟨⟨h0, h1⟩, hll0⟩, hll3⟩ := h
  refine ⟨h0, h1, ?_⟩
  generalize p2.extractLsb' 5 2 = ll at hll0 hll3 ⊢
  revert ll; decide

/-- `P0` with `0` in bits 3:2 and `mm = 11b` matches its row (R34). -/
theorem p0_and_mask {p0 : Byte} (hres : p0.extractLsb' 2 2 = 0) (hmm : p0.extractLsb' 0 2 = 3) :
    p0 &&& 0x0F = 0x03 := by
  revert p0; decide

/-- `P1` with `1` in bit 2 and `pp = 01b` has `W` as the one bit in which the rows differ (R34). -/
theorem p1_and_mask {p1 : Byte} (hres : p1.extractLsb' 2 1 = 1) (hpp : p1.extractLsb' 0 2 = 1) :
    p1 &&& 0x87 = p1.extractLsb' 7 1 ++ (0x05 : BitVec 7) := by
  revert p1; decide

/-- The rows fix `L'L` of `P2` alone (R34). -/
theorem p2_and_mask (p2 : Byte) : p2 &&& 0x60 = (0 : BitVec 1) ++ p2.extractLsb' 5 2 ++ (0 : BitVec 5) := by
  revert p2; decide

/-- Settles O13: the fixed bits pass the header check, and opcode byte, `W` and `L'L` are those of the form. -/
theorem headerMatchesTheFormsRow : Obligations.HeaderMatchesTheFormsRow := by
  intro mode64 e p0 p1 p2 op modrm tail i rest h
  obtain ⟨hheader, src2, imm8, mask, -, -, -, hinvalid, hi⟩ := (decode_instr_iff ..).1 h
  obtain ⟨he, -, hmm, hpp, hop⟩ := headerRefusal_none hheader
  obtain ⟨hres0, hres1, hll⟩ := headerInvalid_false hinvalid
  obtain ⟨hopcode, hwBit, hllBits⟩ := formOf_fields (w := p1.extractLsb' 7 1) hop hll
    ⟨(~~~ p0.extractLsb' 4 1) ++ (~~~ p0.extractLsb' 7 1) ++ modrm.extractLsb' 3 3,
      (~~~ p2.extractLsb' 3 1) ++ (~~~ p1.extractLsb' 3 4), src2, mask, imm8⟩
  rw [← hi] at hopcode hwBit hllBits
  refine ⟨he, p0_and_mask hres0 hmm, ?_⟩
  rw [p1_and_mask hres1 hpp, p2_and_mask, ← hwBit, ← hllBits, ← hopcode]
  cases i <;> simp [Instr.wBit, Instr.llBits, Instr.opcode]

/-! ## Encodings that are refused -/

/-- The step is refused as the decoder refuses the fetched bytes. -/
theorem step_eq_refused {s : State} {r : DecodeRefusal} (h : decode s.mode64 (fetchBytes s) = .refused r) :
    step s = .refused (.encoding r) := by
  rw [step, h]

/-- An instruction that lies below the top of the address space is fetched as a whole (R14, R44). -/
theorem encodedLength_le_fetched {s : State} {e p0 p1 p2 op modrm : Byte} {tail : List Byte}
    (hbytes : fetchBytes s = e :: p0 :: p1 :: p2 :: op :: modrm :: tail)
    (htop : s.rip.toNat + encodedLength modrm tail ≤ 2 ^ Config.aw s.mode64) :
    encodedLength modrm tail ≤ 6 + tail.length := by
  have hlen := fetchBytes_length s
  have hmax : encodedLength modrm tail ≤ Config.maxILen := encodedLength_le modrm tail
  rw [hbytes] at hlen
  simp only [List.length_cons] at hlen
  omega

/-- A register second source with `b = 1` is refused (R45). -/
theorem decode_registerBroadcast {mode64 : Bool} {e p0 p1 p2 op modrm : Byte} {tail : List Byte}
    (hheader : headerRefusal mode64 e p0 p1 p2 op = none) (hlen : encodedLength modrm tail ≤ 6 + tail.length)
    (h : RegisterBroadcastFields p2 modrm) :
    decode mode64 (e :: p0 :: p1 :: p2 :: op :: modrm :: tail) = .refused .registerBroadcast := by
  obtain ⟨src2, imm8, rest, hsrc2⟩ :=
    takeSrc2_complete (~~~ p0.extractLsb' 6 1) (~~~ p0.extractLsb' 5 1) (p2.extractLsb' 4 1 == 1) modrm tail hlen
  have hreserved : modrm.extractLsb' 6 2 = 3 ∧ (p2.extractLsb' 4 1 == 1) = true := ⟨h.1, beq_iff_eq.2 h.2⟩
  simp only [decode, hheader, hsrc2, if_pos hreserved]

/-- `z = 1` without a writemask is refused, where the second source is not refused first (R45). -/
theorem decode_zeroingWithoutMask {mode64 : Bool} {e p0 p1 p2 op modrm : Byte} {tail : List Byte}
    (hheader : headerRefusal mode64 e p0 p1 p2 op = none) (hlen : encodedLength modrm tail ≤ 6 + tail.length)
    (hreg : ¬ RegisterBroadcastFields p2 modrm) (h : ZeroingWithoutMaskFields p2) :
    decode mode64 (e :: p0 :: p1 :: p2 :: op :: modrm :: tail) = .refused .zeroingWithoutMask := by
  obtain ⟨src2, imm8, rest, hsrc2⟩ :=
    takeSrc2_complete (~~~ p0.extractLsb' 6 1) (~~~ p0.extractLsb' 5 1) (p2.extractLsb' 4 1 == 1) modrm tail hlen
  have hnot : ¬ (modrm.extractLsb' 6 2 = 3 ∧ (p2.extractLsb' 4 1 == 1) = true) :=
    fun hreserved => hreg ⟨hreserved.1, beq_iff_eq.1 hreserved.2⟩
  have hmask : maskOf (p2.extractLsb' 7 1) (p2.extractLsb' 0 3) = none := by rw [h.1, h.2]; rfl
  simp only [decode, hheader, hsrc2, if_neg hnot, hmask]

/-- Settles O16: the header passes and the bytes are all there, so the decoder reaches the reserved field. -/
theorem reservedEncodingsAreRefused : Obligations.ReservedEncodingsAreRefused := by
  intro s e p0 p1 p2 op modrm tail hbytes hgroup hmode htop
  have hheader := headerRefusal_eq_none hgroup hmode
  have hlen := encodedLength_le_fetched hbytes htop
  constructor
  · intro hreg
    exact step_eq_refused (hbytes ▸ decode_registerBroadcast hheader hlen hreg)
  · intro hreg hmask
    exact step_eq_refused (hbytes ▸ decode_zeroingWithoutMask hheader hlen hreg hmask)

/-- Settles O17: a header that is not of the group, or not of the subset of R46, is refused before any other field. -/
theorem foreignEncodingsAreRefused : Obligations.ForeignEncodingsAreRefused := by
  intro s e p0 p1 p2 op modrm tail hbytes hforeign
  cases hheader : headerRefusal s.mode64 e p0 p1 p2 op with
  | some r => exact ⟨r, step_eq_refused (by rw [hbytes]; simp only [decode, hheader])⟩
  | none =>
    obtain ⟨⟨he, hmm, hpp, hop⟩, hmode⟩ := groupHeader_of_headerRefusal_none hheader
    rcases hforeign with h | h | h | ⟨h23, h43⟩ | ⟨hm, h⟩
    · exact absurd he h
    · exact absurd hmm h
    · exact absurd hpp h
    · exact (hop.elim h23 h43).elim
    · obtain ⟨h0, h1, h2⟩ := hmode hm
      rcases h with h | h | h
      · exact absurd h0 h
      · exact absurd h1 h
      · exact absurd h2 h

/-! ## A step over an encoding in memory -/

/-- Settles O20: the fetch begins with the encoding, which decodes to the instruction. -/
theorem stepRunsTheEncodedInstruction : Obligations.StepRunsTheEncodedInstruction := by
  intro s i hwf htop hmem
  have hlen : (encode i).length = i.ilen := Laws.EncodedLength.of_any i
  have hmax : i.ilen ≤ Config.maxILen := (instr_ilen_bounds i).2
  obtain ⟨rest, hfetch⟩ := fetchBytes_eq_append s (encode i) (by rw [hlen, fetchCount]; omega) (by rwa [hlen])
  rw [step, hfetch, decodeOfEncode s.mode64 i rest hwf]

/-! ## The effective address as a number -/

/-- The number that a general register contributes to an address: its low `AW` bits (R13, R43). -/
def gprNumber (s : State) (r : BitVec 4) : Int := ((readGpr s r).toNat % 2 ^ Config.aw s.mode64 : Nat)

/-- The number that a scaled index contributes to an address (R43). -/
def indexNumber (s : State) (scale : BitVec 2) (r : BitVec 4) : Int :=
  if r = 4 then 0 else gprNumber s r * 2 ^ scale.toNat

theorem gprForAddress_eq_ofInt (s : State) (r : BitVec 4) :
    gprForAddress s r = BitVec.ofInt 64 (gprNumber s r) := by
  rw [gprNumber, BitVec.ofInt_natCast]
  apply BitVec.eq_of_toNat_eq
  cases h : s.mode64
  · simp [gprForAddress, h, Config.aw]
  · simpa [gprForAddress, h, Config.aw] using (Nat.mod_eq_of_lt (readGpr s r).isLt).symm

/-- A shift by the scale multiplies by its power of two. -/
theorem indexValue_eq_ofInt (s : State) (scale : BitVec 2) (r : BitVec 4) :
    indexValue s scale r = BitVec.ofInt 64 (indexNumber s scale r) := by
  unfold indexValue indexNumber
  split_ifs
  · rfl
  · have htwo : BitVec.ofInt 64 (2 ^ scale.toNat) = BitVec.twoPow 64 scale.toNat := by revert scale; decide
    rw [gprForAddress_eq_ofInt, BitVec.ofInt_mul, BitVec.shiftLeft_eq_mul_twoPow, htwo]

/-- The displacement bytes are read as a signed number, disp8 times the operand size (R43). -/
theorem scaledDisp_eq_ofInt (n : Nat) (disp : Disp) : scaledDisp n disp = BitVec.ofInt 64 (dispInt n disp) := by
  cases disp with
  | none => rfl
  | disp8 d => rw [dispInt, BitVec.ofInt_mul, BitVec.ofInt_natCast]; rfl
  | disp32 d => rfl

/-- Where neither base nor index is, the base is the next instruction's address in 64-bit mode (R43, R46). -/
theorem baseValue_disp32_eq_ofInt (s : State) (ilen : Nat) (d : BitVec 32) :
    baseValue s ilen (.disp32 d) = BitVec.ofInt 64 (if s.mode64 then (s.rip.toNat : Int) + ilen else 0) := by
  rw [baseValue]
  split_ifs
  · rw [BitVec.ofInt_add, BitVec.ofInt_natCast, BitVec.ofInt_natCast, BitVec.ofNat_toNat, BitVec.setWidth_eq]
  · rfl

/-- The address that a number stands for is that number modulo `2^AW` (R43, R46). -/
theorem toNat_wrapAddress_ofInt (mode64 : Bool) (z : Int) :
    ((wrapAddress mode64 (BitVec.ofInt 64 z)).toNat : Int) = z % 2 ^ Config.aw mode64 := by
  cases mode64 <;> simp [wrapAddress, Config.aw] <;> omega

/-- Settles O36: each part of the address is the word of its number, and only the sum is reduced. -/
theorem effectiveAddressAsANumber : Obligations.EffectiveAddressAsANumber := by
  intro n ilen m s
  rw [effectiveAddress]
  cases m with
  | base b disp =>
    rw [baseValue, scaledIndex, dispValue, add_zero, gprForAddress_eq_ofInt, scaledDisp_eq_ofInt,
      ← BitVec.ofInt_add]
    exact toNat_wrapAddress_ofInt ..
  | disp32 d =>
    rw [baseValue_disp32_eq_ofInt, scaledIndex, dispValue, add_zero, BitVec.signExtend, ← BitVec.ofInt_add]
    exact toNat_wrapAddress_ofInt ..
  | sib scale r b disp =>
    rw [baseValue, scaledIndex, dispValue, gprForAddress_eq_ofInt, indexValue_eq_ofInt, scaledDisp_eq_ofInt,
      ← BitVec.ofInt_add, ← BitVec.ofInt_add]
    exact toNat_wrapAddress_ofInt ..
  | sibNoBase scale r d =>
    rw [baseValue, scaledIndex, dispValue, zero_add, indexValue_eq_ofInt, BitVec.signExtend, ← BitVec.ofInt_add]
    exact toNat_wrapAddress_ofInt ..

/-! ## The immediate of a 256-bit form -/

/-- Another immediate that selects the same lanes from the two sources gives the same outcome: nothing else of a form
reads it (R42). -/
theorem execForm_withImm8 {vl esz : Nat} {sel : LaneSelection vl} {o : ShufOperands} {imm : BitVec 8} {s : State}
    (h : sel ((readZmm s o.s1).extractLsb' 0 vl) (secondSource vl esz o s) imm =
      sel ((readZmm s o.s1).extractLsb' 0 vl) (secondSource vl esz o s) o.imm8) :
    execForm vl esz sel { o with imm8 := imm } s = execForm vl esz sel o s := by
  have hsrc2 : secondSource vl esz { o with imm8 := imm } s = secondSource vl esz o s := rfl
  have hdest : newDest vl esz sel { o with imm8 := imm } s = newDest vl esz sel o s := by
    rw [newDest, hsrc2, h, newDest]
  have hback : writeBack vl esz sel { o with imm8 := imm } s = writeBack vl esz sel o s := by
    simp only [writeBack, writeZmm, hdest]
  unfold execForm
  rw [hback]
  rfl

/-- A 256-bit form selects by bits 0 and 1 of the immediate alone (R52). -/
theorem shuffle256_congr_imm8 {imm imm' : BitVec 8} (h : imm.extractLsb' 0 2 = imm'.extractLsb' 0 2)
    (s1 t : BitVec 256) : shuffle256 s1 t imm = shuffle256 s1 t imm' := by
  have bit0 : ∀ i : BitVec 8, i.extractLsb' 0 1 = (i.extractLsb' 0 2).extractLsb' 0 1 := by decide
  have bit1 : ∀ i : BitVec 8, i.extractLsb' 1 1 = (i.extractLsb' 0 2).extractLsb' 1 1 := by decide
  rw [shuffle256, shuffle256, bit0, bit1, h, ← bit0, ← bit1]

/-- Settles O39: the 256-bit forms share one lane selection, which reads the two low bits. -/
theorem immediateBitsAbove1UnreadAt256 : Obligations.ImmediateBitsAbove1UnreadAt256 := by
  intro i imm s hvl himm
  cases i with
  | vshuff32x4y o => exact execForm_withImm8 (shuffle256_congr_imm8 himm _ _)
  | vshuff64x2y o => exact execForm_withImm8 (shuffle256_congr_imm8 himm _ _)
  | vshufi32x4y o => exact execForm_withImm8 (shuffle256_congr_imm8 himm _ _)
  | vshufi64x2y o => exact execForm_withImm8 (shuffle256_congr_imm8 himm _ _)
  | vshuff32x4z o => cases hvl
  | vshuff64x2z o => cases hvl
  | vshufi32x4z o => cases hvl
  | vshufi64x2z o => cases hvl

/-! ## The intrinsics -/

/-- The low `VL` bits that a completed form leaves in the destination are those of the value it writes (R56). -/
theorem leavesInDestination_of_newDest {i : Instr} {s : State} {value : BitVec i.vl}
    (h : (newDest i.vl i.esz (laneSelection i) i.operands s).extractLsb' 0 i.vl = value) :
    LeavesInDestination i s value := by
  intro t hexec
  obtain ⟨-, rfl⟩ := (exec_next_iff i s t).1 hexec
  rw [readZmm_completedState, if_pos rfl]
  exact h

/-- The low `vl` bits of the value written are the masked value (R54, R55). -/
theorem newDest_low {vl esz : Nat} (hvl : vl ≤ Config.maxVL) (sel : LaneSelection vl) (o : ShufOperands) (s : State) :
    (newDest vl esz sel o s).extractLsb' 0 vl =
      applyMask vl esz (maskTakes s o.mask) (maskZeroes o.mask)
        (sel ((readZmm s o.s1).extractLsb' 0 vl) (secondSource vl esz o s) o.imm8)
        ((readZmm s o.d).extractLsb' 0 vl) := by
  rw [newDest, BitVec.extractLsb'_setWidth_of_le (by rwa [Nat.zero_add]), BitVec.extractLsb'_eq_self]

/-- An intrinsic's writemask holds the opmask bits that a masked form reads (R12, R48). -/
theorem getLsbD_intrinsicMask {n kl : Nat} (hkl : n ≤ kl) (s : State) (k : BitVec 3) (j : Nat) (hj : j < n) :
    ((readK s k).extractLsb' 0 kl).getLsbD j = (readK s k).getLsbD j := by
  simp [show j < kl by omega]

section registerForm
variable {vl esz : Nat} {sel : LaneSelection vl} {d s1 r : BitVec 5} {k : BitVec 3} {imm : BitVec 8} {s : State}
  {old a b : BitVec vl} (hsize : 0 < esz ∧ esz * (vl / esz) = vl ∧ vl ≤ Config.maxVL)
  (ha : (readZmm s s1).extractLsb' 0 vl = a) (hb : (readZmm s r).extractLsb' 0 vl = b)
include hsize ha hb

/-- An unmasked form with register operands writes the unmasked intrinsic's value (R48). -/
theorem newDest_eq_unmaskedIntrinsic :
    (newDest vl esz sel ⟨d, s1, .reg r, .none, imm⟩ s).extractLsb' 0 vl = unmaskedIntrinsic vl esz sel a b imm := by
  obtain ⟨hesz, hfill, hvl⟩ := hsize
  subst ha hb
  rw [newDest_low hvl]
  exact (applyMask_none vl esz hesz hfill s false _ _).trans (applyMask_none vl esz hesz hfill s false _ 0).symm

variable {kl : Nat} (hkl : vl / esz ≤ kl)
include hkl

/-- A merging-masked form with register operands writes the merging intrinsic's value (R48). -/
theorem newDest_eq_mergingIntrinsic (hold : (readZmm s d).extractLsb' 0 vl = old) :
    (newDest vl esz sel ⟨d, s1, .reg r, .merging k, imm⟩ s).extractLsb' 0 vl =
      mergingIntrinsic vl esz kl sel old ((readK s k).extractLsb' 0 kl) a b imm := by
  obtain ⟨hesz, hfill, hvl⟩ := hsize
  subst ha hb hold
  rw [newDest_low hvl, mergingIntrinsic, applyMask_congr hesz hfill (getLsbD_intrinsicMask hkl s k)]
  rfl

/-- A zeroing-masked form with register operands writes the zeroing intrinsic's value, whatever the old destination
(R48, R54). -/
theorem newDest_eq_zeroingIntrinsic :
    (newDest vl esz sel ⟨d, s1, .reg r, .zeroing k, imm⟩ s).extractLsb' 0 vl =
      zeroingIntrinsic vl esz kl sel ((readK s k).extractLsb' 0 kl) a b imm := by
  obtain ⟨hesz, hfill, hvl⟩ := hsize
  subst ha hb
  rw [newDest_low hvl, zeroingIntrinsic, applyMask_congr hesz hfill (getLsbD_intrinsicMask hkl s k)]
  rfl

end registerForm

/-- Settles O46: one argument for each masking mode, at the sizes of each form; a 512-bit value is its own low part. -/
theorem intrinsicsAreTheInstructions : Obligations.IntrinsicsAreTheInstructions := by
  intro d s1 r k imm s
  have full : ∀ v : ZmmWord, v.extractLsb' 0 512 = v := fun v => BitVec.extractLsb'_eq_self
  have y32 : 0 < 32 ∧ 32 * (256 / 32) = 256 ∧ 256 ≤ Config.maxVL := by decide
  have z32 : 0 < 32 ∧ 32 * (512 / 32) = 512 ∧ 512 ≤ Config.maxVL := by decide
  have z64 : 0 < 64 ∧ 64 * (512 / 64) = 512 ∧ 512 ≤ Config.maxVL := by decide
  refine ⟨?_, ?_, ?_, ?_, ?_, ?_, ?_, ?_, ?_, ?_, ?_, ?_, ?_, ?_, ?_⟩ <;> apply leavesInDestination_of_newDest
  · exact newDest_eq_unmaskedIntrinsic z32 (full _) (full _)
  · exact newDest_eq_mergingIntrinsic z32 (full _) (full _) (by decide) (full _)
  · exact newDest_eq_zeroingIntrinsic z32 (full _) (full _) (by decide)
  · exact newDest_eq_unmaskedIntrinsic y32 rfl rfl
  · exact newDest_eq_mergingIntrinsic y32 rfl rfl (by decide) rfl
  · exact newDest_eq_zeroingIntrinsic y32 rfl rfl (by decide)
  · exact newDest_eq_unmaskedIntrinsic z32 (full _) (full _)
  · exact newDest_eq_mergingIntrinsic z32 (full _) (full _) (by decide) (full _)
  · exact newDest_eq_zeroingIntrinsic z32 (full _) (full _) (by decide)
  · exact newDest_eq_unmaskedIntrinsic z64 (full _) (full _)
  · exact newDest_eq_mergingIntrinsic z64 (full _) (full _) (by decide) (full _)
  · exact newDest_eq_zeroingIntrinsic z64 (full _) (full _) (by decide)
  · exact newDest_eq_unmaskedIntrinsic z64 (full _) (full _)
  · exact newDest_eq_mergingIntrinsic z64 (full _) (full _) (by decide) (full _)
  · exact newDest_eq_zeroingIntrinsic z64 (full _) (full _) (by decide)

/-! ## Words written out in the spec -/

/-- Settles O14: each byte string is the encoding of its instruction, which decodes back. -/
theorem writtenOutWordsDecode : Obligations.WrittenOutWordsDecode :=
  ⟨decodeOfEncode true (.vshuff32x4y ⟨1, 2, .reg 3, .none, 0x03⟩) [] rfl,
    decodeOfEncode true (.vshufi64x2z ⟨1, 2, .reg 3, .none, 0x1B⟩) [] rfl,
    decodeOfEncode true (.vshuff64x2z ⟨31, 16, .reg 24, .none, 0xFF⟩) [] rfl,
    decodeOfEncode true (.vshuff64x2z ⟨9, 25, .reg 14, .zeroing 5, 0x39⟩) [] rfl,
    decodeOfEncode true (.vshuff32x4z ⟨17, 30, .mem (.sib 2 10 9 (.disp8 0x40)) true, .merging 7, 0x9C⟩) [] rfl,
    decodeOfEncode true (.vshuff32x4z ⟨1, 2, .mem (.sibNoBase 3 1 0x1000) false, .none, 0x00⟩) [] rfl⟩

end Sys2Proof.Machine
end

section
/-! PROOFS. The family 40_shuffle128_common.md: lane selection (R49, R50, R52, R53), the value of operand 3 (R51), what
a completed form writes (R54 to R56), what its result does not depend on, and the relations between forms (R57, R58). -/

namespace Sys2Proof.Machine

/-! ## A step, and the F and I mnemonics -/

/-- Settles O19: where decoding gives an instruction, the step is its run. -/
theorem stepRunsTheDecodedInstruction : Obligations.StepRunsTheDecodedInstruction := by
  intro s i rest h
  rw [step, h]

/-- Settles O43: the two mnemonics of a pair are the shared step at the same parameters. -/
theorem floatAndIntegerFormsAgree : Obligations.FloatAndIntegerFormsAgree :=
  fun _ _ => ⟨rfl, rfl, rfl, rfl⟩

/-! ## Lane selection -/

theorem select2_eq_elemAt (src : BitVec 256) (c : BitVec 1) : select2 src c = elemAt 128 src c.toNat := by
  have hc : c = 0 ∨ c = 1 := by revert c; decide
  rcases hc with rfl | rfl <;> rfl

theorem select4_eq_elemAt (src : BitVec 512) (c : BitVec 2) : select4 src c = elemAt 128 src c.toNat := by
  have hc : c = 0 ∨ c = 1 ∨ c = 2 ∨ c = 3 := by revert c; decide
  rcases hc with rfl | rfl | rfl | rfl <;> rfl

/-- Settles O33: by the values of the control. -/
theorem selectTakesTheNamedLane : Obligations.SelectTakesTheNamedLane :=
  ⟨select2_eq_elemAt, select4_eq_elemAt⟩

/-- The formula of R53 with `w` selector bits for a lane. -/
theorem selectedElement_eq {vl w : Nat} (hw : (if vl = 256 then 1 else 2) = w) (esz : Nat) (s1 t : BitVec vl)
    (imm : BitVec 8) (j : Nat) :
    selectedElement esz s1 t imm j =
      elemAt esz (if j * esz / 128 < vl / 128 / 2 then s1 else t)
        ((imm.extractLsb' (w * (j * esz / 128)) w).toNat * (128 / esz) + j % (128 / esz)) := by
  subst hw
  rw [BitVec.extractLsb'_toNat, Nat.shiftRight_eq_div_pow]
  rfl

/-- At the size of a lane the formula of R53 selects a whole lane. -/
theorem selectedElement_lane {vl w : Nat} (hw : (if vl = 256 then 1 else 2) = w) (s1 t : BitVec vl) (imm : BitVec 8)
    (n : Nat) :
    selectedElement 128 s1 t imm n =
      elemAt 128 (if n < vl / 128 / 2 then s1 else t) (imm.extractLsb' (w * n) w).toNat := by
  rw [selectedElement_eq hw, Nat.mul_div_cancel n (by decide), Nat.div_self (by decide), Nat.mod_one, Nat.mul_one,
    Nat.add_zero]

/-- `TMP` of a 256-bit form, lane by lane (R52). -/
theorem shuffle256_lane (s1 t : BitVec 256) (imm : BitVec 8) {n : Nat} (hn : n < 256 / 128) :
    elemAt 128 (shuffle256 s1 t imm) n = selectedElement 128 s1 t imm n := by
  obtain ⟨lane0, lane1⟩ := shuffle256_lanes s1 t imm
  rw [selectedElement_lane rfl]
  obtain rfl | rfl : n = 0 ∨ n = 1 := by omega
  · exact lane0.trans (select2_eq_elemAt ..)
  · exact lane1.trans (select2_eq_elemAt ..)

/-- `TMP` of a 512-bit form, lane by lane (R53). -/
theorem shuffle512_lane (s1 t : BitVec 512) (imm : BitVec 8) {n : Nat} (hn : n < 512 / 128) :
    elemAt 128 (shuffle512 s1 t imm) n = selectedElement 128 s1 t imm n := by
  obtain ⟨lane0, lane1, lane2, lane3⟩ := shuffle512_lanes s1 t imm
  rw [selectedElement_lane rfl]
  obtain rfl | rfl | rfl | rfl : n = 0 ∨ n = 1 ∨ n = 2 ∨ n = 3 := by omega
  · exact lane0.trans (select4_eq_elemAt ..)
  · exact lane1.trans (select4_eq_elemAt ..)
  · exact lane2.trans (select4_eq_elemAt ..)
  · exact lane3.trans (select4_eq_elemAt ..)

/-- The lanes of `TMP` of every form (R52, R53). -/
theorem laneSelection_lane (i : Instr) (s1 t : BitVec i.vl) (imm : BitVec 8) {n : Nat} (hn : n < i.vl / 128) :
    elemAt 128 (laneSelection i s1 t imm) n = selectedElement 128 s1 t imm n := by
  cases i with
  | vshuff32x4y o => exact shuffle256_lane s1 t imm hn
  | vshuff64x2y o => exact shuffle256_lane s1 t imm hn
  | vshufi32x4y o => exact shuffle256_lane s1 t imm hn
  | vshufi64x2y o => exact shuffle256_lane s1 t imm hn
  | vshuff32x4z o => exact shuffle512_lane s1 t imm hn
  | vshuff64x2z o => exact shuffle512_lane s1 t imm hn
  | vshufi32x4z o => exact shuffle512_lane s1 t imm hn
  | vshufi64x2z o => exact shuffle512_lane s1 t imm hn

/-- Element `p` of lane `c` is element `c * (128/ESZ) + p` of the value (R8). -/
theorem elemAt_lane {vl esz : Nat} (hesz : esz = 32 ∨ esz = 64) (v : BitVec vl) (c : Nat) {p : Nat}
    (hp : p < 128 / esz) : elemAt esz (elemAt 128 v c) p = elemAt esz v (c * (128 / esz) + p) := by
  have hpos : 128 * c + esz * p = esz * (c * (128 / esz) + p) := by rcases hesz with rfl | rfl <;> omega
  have hfit : esz * (p + 1) ≤ 128 := by rcases hesz with rfl | rfl <;> omega
  rw [elemAt_elemAt 128 v c p hfit, hpos, elemAt]

/-- The element selected lies in the lane selected, at its own position there. -/
theorem elemAt_selectedElement_lane {vl esz : Nat} (hesz : esz = 32 ∨ esz = 64) (s1 t : BitVec vl) (imm : BitVec 8)
    (j : Nat) :
    elemAt esz (selectedElement 128 s1 t imm (j * esz / 128)) (j % (128 / esz)) = selectedElement esz s1 t imm j := by
  have hp : j % (128 / esz) < 128 / esz := Nat.mod_lt j (by rcases hesz with rfl | rfl <;> decide)
  rw [selectedElement_lane rfl, elemAt_lane hesz _ _ hp, selectedElement_eq rfl]

/-- `TMP` of every form, element by element: R52 and R53 give the one formula. -/
theorem laneSelection_elem (i : Instr) (s1 t : BitVec i.vl) (imm : BitVec 8) {j : Nat} (hj : j < i.vl / i.esz) :
    elemAt i.esz (laneSelection i s1 t imm) j = selectedElement i.esz s1 t imm j := by
  have hesz := instr_esz_eq i
  have hlane : j * i.esz / 128 < i.vl / 128 := by
    have hvl := instr_vl_eq i
    rcases hesz with he | he <;> rw [he] at hj ⊢ <;> omega
  have hp : j % (128 / i.esz) < 128 / i.esz := Nat.mod_lt j (by rcases hesz with he | he <;> simp [he])
  have hj' : j * i.esz / 128 * (128 / i.esz) + j % (128 / i.esz) = j := by
    rcases hesz with he | he <;> rw [he] <;> omega
  calc elemAt i.esz (laneSelection i s1 t imm) j
      = elemAt i.esz (elemAt 128 (laneSelection i s1 t imm) (j * i.esz / 128)) (j % (128 / i.esz)) := by
        rw [elemAt_lane hesz _ _ hp, hj']
    _ = selectedElement i.esz s1 t imm j := by
        rw [laneSelection_lane i s1 t imm hlane, elemAt_selectedElement_lane hesz]

/-! ## What a completed form writes -/

theorem instr_vl_le (i : Instr) : i.vl ≤ Config.maxVL := by
  rcases instr_vl_eq i with h | h <;> simp [h, Config.maxVL]

/-- An element of the low `VL` bits of the destination is one of the masked value (R54, R56). -/
theorem elemAt_destination {w j : Nat} (i : Instr) (s : State) (hfit : w * (j + 1) ≤ i.vl) :
    elemAt w (readZmm (completedState i s) i.operands.d) j =
      elemAt w (applyMask i.vl i.esz (maskTakes s i.operands.mask) (maskZeroes i.operands.mask)
        (laneSelection i ((readZmm s i.operands.s1).extractLsb' 0 i.vl) (secondSource i.vl i.esz i.operands s)
          i.operands.imm8)
        ((readZmm s i.operands.d).extractLsb' 0 i.vl)) j := by
  rw [readZmm_completedState, if_pos rfl, ← newDest_low (instr_vl_le i), elemAt_extractLow w _ j hfit]

/-- Bits `MAXVL-1:VL` of the destination are zero (R55). -/
theorem destination_getLsbD_of_ge (i : Instr) (s : State) {b : Nat} (hb : i.vl ≤ b) :
    (readZmm (completedState i s) i.operands.d).getLsbD b = false := by
  rw [readZmm_completedState, if_pos rfl, newDest, BitVec.getLsbD_setWidth, BitVec.getLsbD_of_ge _ b hb,
    Bool.and_false]

/-- An element above `VL` of the destination is zero (R55). -/
theorem elemAt_destination_of_ge {w j : Nat} (i : Instr) (s : State) (h : i.vl ≤ w * j) :
    elemAt w (readZmm (completedState i s) i.operands.d) j = 0 := by
  apply BitVec.eq_of_getLsbD_eq
  intro b _
  rw [elemAt_getLsbD, destination_getLsbD_of_ge i s (by omega), Bool.and_false]
  exact BitVec.getLsbD_zero.symm

/-- Settles O31: the value written is `VL` bits wide. -/
theorem upperBitsOfTheDestinationAreZero : Obligations.UpperBitsOfTheDestinationAreZero := by
  intro i s t h b hb
  obtain ⟨-, rfl⟩ := (exec_next_iff i s t).1 h
  exact destination_getLsbD_of_ge i s hb

/-- An element under a writemask, by the two questions that R54 asks of it. -/
theorem maskedElement_eq {w : Nat} (s : State) (mask : Writemask) (j : Nat) (new old : BitVec w) :
    maskedElement s mask j new old = if maskTakes s mask j then new else if maskZeroes mask then 0 else old := by
  cases mask <;> rfl

/-- Each element of the destination is the selected one under the writemask (R52 to R54). -/
theorem destination_elem (i : Instr) (s : State) {j : Nat} (hj : j < i.vl / i.esz) :
    elemAt i.esz (readZmm (completedState i s) i.operands.d) j =
      maskedElement s i.operands.mask j
        (selectedElement i.esz ((readZmm s i.operands.s1).extractLsb' 0 i.vl) (secondSource i.vl i.esz i.operands s)
          i.operands.imm8 j)
        (elemAt i.esz (readZmm s i.operands.d) j) := by
  have hfit : i.esz * (j + 1) ≤ i.vl := by
    calc i.esz * (j + 1) ≤ i.esz * (i.vl / i.esz) := Nat.mul_le_mul_left i.esz hj
      _ ≤ i.vl := Nat.mul_div_le i.vl i.esz
  rw [elemAt_destination i s hfit, elemAt_applyMask _ _ _ _ _ _ j hj, laneSelection_elem i _ _ _ hj,
    elemAt_extractLow i.esz _ j hfit, maskedElement_eq]

/-- Settles O27: the elements of `completedState` below `VL = 256`, zeros above, and its frame. -/
theorem forms256WriteTheShuffle : Obligations.Forms256WriteTheShuffle := by
  intro i s hvl hc
  refine ⟨completedState i s, (exec_next_iff i s _).2 ⟨hc, rfl⟩, fun j hj => ?_, ?_, completedState_rip_toNat hc,
    completedState_frame i s⟩
  · rw [← hvl] at hj
    exact destination_elem i s hj
  · exact elemAt_destination_of_ge (w := 256) (j := 1) i s hvl.le

/-- Settles O28: the elements of `completedState` below `VL = 512`, and its frame. -/
theorem forms512WriteTheShuffle : Obligations.Forms512WriteTheShuffle := by
  intro i s hvl hc
  refine ⟨completedState i s, (exec_next_iff i s _).2 ⟨hc, rfl⟩, fun j hj => ?_, completedState_rip_toNat hc,
    completedState_frame i s⟩
  rw [← hvl] at hj
  exact destination_elem i s hj

/-! ## The lanes without a writemask -/

/-- Without a writemask each lane of the destination is a lane of one source: of the first in the lower half, of the
second in the upper half (R52, R53). -/
theorem destination_lane_unmasked {i : Instr} {w : Nat} (hmask : i.operands.mask = .none)
    (hw : (if i.vl = 256 then 1 else 2) = w) (s : State) {n : Nat} (hn : n < i.vl / 128) :
    elemAt 128 (readZmm (completedState i s) i.operands.d) n =
      elemAt 128 (if n < i.vl / 128 / 2 then (readZmm s i.operands.s1).extractLsb' 0 i.vl
        else secondSource i.vl i.esz i.operands s) (i.operands.imm8.extractLsb' (w * n) w).toNat := by
  obtain ⟨hesz, hfill⟩ := instr_elems_fill i
  rw [elemAt_destination i s (by omega), hmask, applyMask_none i.vl i.esz hesz hfill, laneSelection_lane i _ _ _ hn,
    selectedElement_lane hw]

/-- A lane selector names a lane of the vector length, so the low part of a register has that lane of the register. -/
theorem elemAt_extractLow_selector {vl w : Nat} (hfit : 128 * 2 ^ w ≤ vl) (v : ZmmWord) (c : BitVec w) :
    elemAt 128 (v.extractLsb' 0 vl) c.toNat = elemAt 128 v c.toNat :=
  elemAt_extractLow 128 v c.toNat (le_trans (Nat.mul_le_mul_left 128 c.isLt) hfit)

/-- Settles O29: lane 0 selects by bit 0 of the immediate, lane 1 by bit 1, and lanes 2 and 3 lie above `VL`. -/
theorem unmaskedLanes256 : Obligations.UnmaskedLanes256 := by
  intro i s hvl hmask hc
  have hlane := fun n => destination_lane_unmasked (w := 1) (n := n) hmask (if_pos hvl) s
  refine ⟨completedState i s, (exec_next_iff i s _).2 ⟨hc, rfl⟩, ?_, ?_, ?_, ?_⟩
  · rw [hlane 0 (by omega), if_pos (by omega)]
    exact elemAt_extractLow_selector (by omega) _ _
  · rw [hlane 1 (by omega), if_neg (by omega)]
  · exact elemAt_destination_of_ge i s (by omega)
  · exact elemAt_destination_of_ge i s (by omega)

/-- Settles O30: lane `n` selects by bits `2n+1:2n` of the immediate. -/
theorem unmaskedLanes512 : Obligations.UnmaskedLanes512 := by
  intro i s hvl hmask hc
  have hlane := fun n => destination_lane_unmasked (w := 2) (n := n) hmask (if_neg (by omega)) s
  refine ⟨completedState i s, (exec_next_iff i s _).2 ⟨hc, rfl⟩, ?_, ?_, ?_, ?_⟩
  · rw [hlane 0 (by omega), if_pos (by omega)]
    exact elemAt_extractLow_selector (by omega) _ _
  · rw [hlane 1 (by omega), if_pos (by omega)]
    exact elemAt_extractLow_selector (by omega) _ _
  · rw [hlane 2 (by omega), if_neg (by omega)]
  · rw [hlane 3 (by omega), if_neg (by omega)]

/-! ## Reversing the lanes twice -/

/-- `VSHUFF32x4 zmm, zmm, zmm, 1BH` on the register `r`. -/
def laneReversal (r : BitVec 5) : Instr := .vshuff32x4z ⟨r, r, .reg r, .none, 0x1B⟩

/-- It has 7 bytes and reads no memory, so it completes where it is admitted and `rip` has room. -/
theorem completes_laneReversal {s : State} (r : BitVec 5) (hadm : Admitted 512 s)
    (hrip : s.rip.toNat + 7 < 2 ^ Config.aw s.mode64) : Completes (laneReversal r) s :=
  ⟨hadm, nofun, hrip⟩

/-- Its four selectors are 3, 2, 1, 0: the lanes are reversed. -/
theorem laneReversal_lane (r : BitVec 5) (s : State) {n : Nat} (hn : n < 4) :
    elemAt 128 (readZmm (completedState (laneReversal r) s) r) n = elemAt 128 (readZmm s r) (3 - n) := by
  have hsel : ((0x1B : BitVec 8).extractLsb' (2 * n) 2).toNat = 3 - n := by revert n; decide
  have hlow : (readZmm s r).extractLsb' 0 512 = readZmm s r := BitVec.extractLsb'_eq_self
  have hlane := destination_lane_unmasked (i := laneReversal r) (w := 2) rfl rfl s (show n < 512 / 128 from hn)
  have hsources : (if n < 512 / 128 / 2 then (readZmm s r).extractLsb' 0 512 else (readZmm s r).extractLsb' 0 512) =
      readZmm s r := by rw [ite_self, hlow]
  rw [← hsel]
  exact hlane.trans (congrArg (elemAt 128 · _) hsources)

/-- States with the same value in every vector register have the same vector registers (R10). -/
theorem zmm_eq_of_readZmm {s t : State} (h : ∀ r, readZmm t r = readZmm s r) : t.zmm = s.zmm := by
  apply Vector.ext
  intro n hn
  have hr : (BitVec.ofNat 5 n).toNat = n := Nat.mod_eq_of_lt hn
  simpa only [readZmm, hr] using h (BitVec.ofNat 5 n)

/-- Run twice it leaves every vector register as it was (R86). -/
theorem zmm_laneReversal_twice (r : BitVec 5) (s : State) :
    (completedState (laneReversal r) (completedState (laneReversal r) s)).zmm = s.zmm := by
  refine zmm_eq_of_readZmm fun r' => ?_
  by_cases hr : r' = r
  · subst hr
    refine eq_of_elemAt 128 (by decide) _ _ 4 (by decide) fun n hn => ?_
    rw [laneReversal_lane _ _ hn, laneReversal_lane _ _ (by omega), Nat.sub_sub_self (by omega)]
  · have other : ∀ t, readZmm (completedState (laneReversal r) t) r' = readZmm t r' :=
      fun t => (completedState_frame (laneReversal r) t).1 r' hr
    rw [other, other]

/-- Settles O45: both runs complete, the second from the state that the first leaves. -/
theorem laneReversalTwiceIsTheIdentity : Obligations.LaneReversalTwiceIsTheIdentity := by
  intro r s hadm htop
  have hc1 := completes_laneReversal r hadm (by omega)
  have hrip1 : (completedState (laneReversal r) s).rip.toNat = s.rip.toNat + 7 := completedState_rip_toNat hc1
  have hroom : s.rip.toNat + 7 + 7 < 2 ^ Config.aw (completedState (laneReversal r) s).mode64 := htop
  have hc2 := completes_laneReversal (s := completedState (laneReversal r) s) r hadm (by rwa [hrip1])
  refine ⟨_, _, (exec_next_iff _ s _).2 ⟨hc1, rfl⟩, (exec_next_iff _ _ _).2 ⟨hc2, rfl⟩,
    fun n hn => laneReversal_lane r s hn, zmm_laneReversal_twice r s, ?_⟩
  rw [← laneReversal, completedState_rip_toNat hc2, hrip1]
  rfl

/-! ## The value of operand 3 -/

theorem secondSource_of_reg {o : ShufOperands} {r : BitVec 5} (h : o.src2 = .reg r) (vl esz : Nat) (s : State) :
    secondSource vl esz o s = (readZmm s r).extractLsb' 0 vl := by rw [secondSource, h]

theorem secondSource_of_mem {o : ShufOperands} {m : MemOperand} (h : o.src2 = .mem m false) (vl esz : Nat)
    (s : State) : secondSource vl esz o s = memRead vl (effectiveAddress (vl / 8) o.ilen m s) s := by
  rw [secondSource, h]; rfl

theorem secondSource_of_bcast {o : ShufOperands} {m : MemOperand} (h : o.src2 = .mem m true) (vl esz : Nat)
    (s : State) :
    secondSource vl esz o s = broadcast vl esz (memRead esz (effectiveAddress (esz / 8) o.ilen m s) s) := by
  rw [secondSource, h]; rfl

/-- A byte of a memory read that lies below the top of the address space is the byte in memory (R22). -/
theorem elemAt_memRead_below {w m : Nat} {addr : Word64} {s : State} (hm : m < w / 8)
    (htop : addr.toNat + m < 2 ^ Config.aw s.mode64) :
    elemAt 8 (memRead w addr s) m = s.mem.read (addr.toNat + m) := by
  rw [elemAt_memRead w addr s m hm, memByte, if_pos htop]

/-- Settles O35: by the kind of operand 3. -/
theorem secondSourceValue : Obligations.SecondSourceValue := by
  intro i s
  split
  case h_1 r hr => exact secondSource_of_reg hr i.vl i.esz s
  case h_2 m hm =>
    rintro a rfl j hj htop
    rw [secondSource_of_mem hm]
    exact elemAt_memRead_below hj htop
  case h_3 m hm =>
    rintro a rfl j hj b hb htop
    rw [secondSource_of_bcast hm, elemAt_broadcast i.vl i.esz _ j hj]
    exact elemAt_memRead_below hb htop

/-! ## Outcomes that are equal -/

/-- Two forms with the same exceptions, length and write-back have the same outcome (R58). -/
theorem execForm_congr {vl esz esz' : Nat} {sel : LaneSelection vl} {o : ShufOperands} {s s' : State}
    (hadm : admissionFault vl s' = admissionFault vl s)
    (hfault : operandFault vl esz' o s' = operandFault vl esz o s)
    (hback : writeBack vl esz' sel o s' = writeBack vl esz sel o s) :
    execForm vl esz' sel o s' = execForm vl esz sel o s := by
  unfold execForm
  rw [hadm, hfault, hback]

/-! ### The old destination -/

/-- With no writemask or with zeroing-masking the masked value does not depend on the old one (R54). -/
theorem applyMask_old_unread {vl esz : Nat} {mask : Writemask} (h : mask = .none ∨ ∃ k, mask = .zeroing k)
    (s : State) (tmp old old' : BitVec vl) :
    applyMask vl esz (maskTakes s mask) (maskZeroes mask) tmp old' =
      applyMask vl esz (maskTakes s mask) (maskZeroes mask) tmp old := by
  refine ofElems_congr fun j _ => ?_
  rcases h with rfl | ⟨k, rfl⟩ <;> rfl

/-- A register that is not operand 3 has no part in its value (R51). -/
theorem secondSource_writeZmm {o : ShufOperands} {r : BitVec 5} (h : o.src2 ≠ .reg r) (vl esz : Nat) (v : ZmmWord)
    (s : State) : secondSource vl esz o (writeZmm r v s) = secondSource vl esz o s := by
  cases hsrc2 : o.src2 with
  | reg r' =>
    have hne : r' ≠ r := fun hr => h (hr ▸ hsrc2)
    rw [secondSource_of_reg hsrc2, secondSource_of_reg hsrc2, readZmm_writeZmm, if_neg hne]
  | mem m bcast =>
    cases bcast with
    | false => rw [secondSource_of_mem hsrc2, secondSource_of_mem hsrc2]; rfl
    | true => rw [secondSource_of_bcast hsrc2, secondSource_of_bcast hsrc2]; rfl

/-- Settles O37: the value written is the same, and it replaces the old one. -/
theorem oldDestinationUnreadWithoutMerging : Obligations.OldDestinationUnreadWithoutMerging := by
  intro i s v hmask hs1 hsrc2
  have htakes : maskTakes (writeZmm i.operands.d v s) i.operands.mask = maskTakes s i.operands.mask := rfl
  have hdest : newDest i.vl i.esz (laneSelection i) i.operands (writeZmm i.operands.d v s) =
      newDest i.vl i.esz (laneSelection i) i.operands s := by
    unfold newDest
    rw [htakes, secondSource_writeZmm hsrc2, readZmm_writeZmm, if_neg hs1.symm, applyMask_old_unread hmask]
  rw [exec_eq_execForm, exec_eq_execForm]
  refine execForm_congr rfl rfl ?_
  rw [writeBack, hdest]
  simp only [writeBack, writeZmm, Vector.set_set]

/-! ### The selectors of a broadcast operand -/

/-- Where every element of the second source is the same, immediates that agree in the selectors of the first source
select the same element (R51). -/
theorem selectedElement_broadcast_congr {vl esz w : Nat} (hw : (if vl = 256 then 1 else 2) = w) (s1 : BitVec vl)
    (e : BitVec esz) {imm imm' : BitVec 8} {j : Nat}
    (hfit : ∀ c : BitVec w, c.toNat * (128 / esz) + j % (128 / esz) < vl / esz)
    (h : ∀ n, n < vl / 128 / 2 → imm.extractLsb' (w * n) w = imm'.extractLsb' (w * n) w) :
    selectedElement esz s1 (broadcast vl esz e) imm j = selectedElement esz s1 (broadcast vl esz e) imm' j := by
  rw [selectedElement_eq hw, selectedElement_eq hw]
  split_ifs with hlow
  · rw [h _ hlow]
  · rw [elemAt_broadcast vl esz e _ (hfit _), elemAt_broadcast vl esz e _ (hfit _)]

/-- The lanes that a selector can name lie within the vector length. -/
theorem selector_fits {i : Instr} {w : Nat} (hw : (if i.vl = 256 then 1 else 2) = w) : 128 * 2 ^ w ≤ i.vl := by
  subst hw
  rcases instr_vl_eq i with hv | hv <;> rw [hv] <;> decide

/-- The element that a lane selector names lies within the vector length. -/
theorem selector_elem_lt {i : Instr} {w : Nat} (hw : (if i.vl = 256 then 1 else 2) = w) (c : BitVec w) (j : Nat) :
    c.toNat * (128 / i.esz) + j % (128 / i.esz) < i.vl / i.esz := by
  have hc := c.isLt
  have hfits := selector_fits hw
  rcases instr_esz_eq i with he | he <;> rw [he] <;> omega

theorem exec_withOperands (i : Instr) (o : ShufOperands) (s : State) :
    exec (withOperands i o) s = execForm i.vl i.esz (laneSelection i) o s := by
  cases i <;> rfl

/-- With a broadcast operand, immediates that agree in the selectors of the first source give the same outcome (R51). -/
theorem exec_withImm8_of_bcast {i : Instr} {m : MemOperand} {imm : BitVec 8} {w : Nat}
    (hsrc2 : i.operands.src2 = .mem m true) (hw : (if i.vl = 256 then 1 else 2) = w)
    (h : ∀ n, n < i.vl / 128 / 2 → imm.extractLsb' (w * n) w = i.operands.imm8.extractLsb' (w * n) w) (s : State) :
    exec (withOperands i { i.operands with imm8 := imm }) s = exec i s := by
  obtain ⟨hesz, hfill⟩ := instr_elems_fill i
  rw [exec_withOperands, exec_eq_execForm]
  refine execForm_withImm8 ?_
  rw [secondSource_of_bcast hsrc2]
  refine eq_of_elemAt i.esz hesz _ _ (i.vl / i.esz) hfill.ge fun j hj => ?_
  rw [laneSelection_elem i _ _ _ hj, laneSelection_elem i _ _ _ hj]
  exact selectedElement_broadcast_congr hw _ _ (fun c => selector_elem_lt hw c j) h

/-- Settles O40: the low half of the selectors is `imm8[0]` at 256 bits and `imm8[3:0]` at 512 bits. -/
theorem broadcastMakesUpperSelectorsIdle : Obligations.BroadcastMakesUpperSelectorsIdle := by
  intro i m imm s hsrc2
  constructor <;> intro hvl himm
  · refine exec_withImm8_of_bcast (w := 1) hsrc2 (if_pos hvl) (fun n hn => ?_) s
    obtain rfl : n = 0 := by omega
    exact himm
  · have field : ∀ n, n < 2 → ∀ b : BitVec 8,
        b.extractLsb' (2 * n) 2 = (b.extractLsb' 0 4).extractLsb' (2 * n) 2 := by decide
    refine exec_withImm8_of_bcast (w := 2) hsrc2 (if_neg (by omega)) (fun n hn => ?_) s
    rw [field n (by omega), himm, ← field n (by omega)]

/-! ### The element size -/

section elementSize
variable {vl esz esz' : Nat} {o : ShufOperands} (hbcast : ∀ m, o.src2 ≠ .mem m true)
include hbcast

/-- Without broadcast the data read does not depend on the element size (R20). -/
theorem dataAccess_esz_irrelevant (s : State) : dataAccess vl esz' o s = dataAccess vl esz o s := by
  cases hsrc2 : o.src2 with
  | reg r => rw [dataAccess_of_reg hsrc2, dataAccess_of_reg hsrc2]
  | mem m bcast =>
    cases bcast with
    | false => rw [dataAccess_of_mem hsrc2, dataAccess_of_mem hsrc2]; rfl
    | true => exact absurd hsrc2 (hbcast m)

/-- Without broadcast the value of operand 3 does not depend on the element size (R51). -/
theorem secondSource_esz_irrelevant (s : State) : secondSource vl esz' o s = secondSource vl esz o s := by
  cases hsrc2 : o.src2 with
  | reg r => rw [secondSource_of_reg hsrc2, secondSource_of_reg hsrc2]
  | mem m bcast =>
    cases bcast with
    | false => rw [secondSource_of_mem hsrc2, secondSource_of_mem hsrc2]
    | true => exact absurd hsrc2 (hbcast m)

/-- Without broadcast and writemask forms of equal length and lane selection have the same outcome (R57). -/
theorem execForm_esz_irrelevant (hesz : 0 < esz ∧ esz * (vl / esz) = vl)
    (hesz' : 0 < esz' ∧ esz' * (vl / esz') = vl) (hmask : o.mask = .none) (sel : LaneSelection vl) (s : State) :
    execForm vl esz' sel o s = execForm vl esz sel o s := by
  obtain ⟨hpos, hfill⟩ := hesz
  obtain ⟨hpos', hfill'⟩ := hesz'
  have hdest : newDest vl esz' sel o s = newDest vl esz sel o s := by
    rw [newDest, newDest, hmask, applyMask_none vl esz' hpos' hfill', applyMask_none vl esz hpos hfill,
      secondSource_esz_irrelevant (esz := esz) hbcast]
  refine execForm_congr rfl ?_ ?_
  · rw [operandFault, operandFault, dataAccess_esz_irrelevant (esz := esz) hbcast]
  · rw [writeBack, writeBack, hdest]

end elementSize

/-- Settles O44: at both lengths the two mnemonics have the same lane selection, and elements of 32 and of 64 bits fill
the vector. -/
theorem elementSizesAgreeWithoutMaskAndBroadcast : Obligations.ElementSizesAgreeWithoutMaskAndBroadcast :=
  fun _ s hmask hbcast =>
    ⟨execForm_esz_irrelevant hbcast (by decide) (by decide) hmask shuffle256 s,
      execForm_esz_irrelevant hbcast (by decide) (by decide) hmask shuffle512 s⟩

end Sys2Proof.Machine
end

section
/-! PROOFS. The family 60_exceptions.md: the encodings that raise `#UD` (R68, R70 a to c), the faults of a form and their
order (R70 d to f, R71, R72, R74), and what an exception records (R73). -/

namespace Sys2Proof.Machine

/-! ## Encodings that raise `#UD` -/

/-- The decoder's check for an invalid encoding is that of R68 and R70 a to c. -/
theorem headerInvalid_iff (p0 p1 p2 : Byte) : headerInvalid p0 p1 p2 = true ↔ InvalidFields p0 p1 p2 := by
  simp only [headerInvalid, InvalidFields, Bool.or_eq_true, bne_iff_ne, beq_iff_eq]
  tauto

/-- Bits `z` and `aaa` that are not the reserved pair name a writemask (R40, R45). -/
theorem maskOf_complete {p2 : Byte} (h : ¬ ZeroingWithoutMaskFields p2) :
    ∃ mask, maskOf (p2.extractLsb' 7 1) (p2.extractLsb' 0 3) = some mask := by
  have hz : p2.extractLsb' 7 1 = 0 ∨ p2.extractLsb' 7 1 = 1 := by
    generalize p2.extractLsb' 7 1 = z
    revert z; decide
  unfold maskOf
  split_ifs with haaa hz0
  · exact ⟨_, rfl⟩
  · exact absurd ⟨haaa, hz.resolve_left hz0⟩ h
  · exact ⟨_, rfl⟩
  · exact ⟨_, rfl⟩

/-- Where no refusal applies, the check for an invalid encoding decides whether the decoder answers `#UD`. -/
theorem decode_eq_invalidOpcode_iff_of_not_refused {mode64 : Bool} {e p0 p1 p2 op modrm : Byte} {tail : List Byte}
    (hheader : headerRefusal mode64 e p0 p1 p2 op = none) (hlen : encodedLength modrm tail ≤ 6 + tail.length)
    (hreg : ¬ RegisterBroadcastFields p2 modrm) (hzero : ¬ ZeroingWithoutMaskFields p2) :
    decode mode64 (e :: p0 :: p1 :: p2 :: op :: modrm :: tail) = .invalidOpcode ↔ InvalidFields p0 p1 p2 := by
  obtain ⟨src2, imm8, rest, hsrc2⟩ :=
    takeSrc2_complete (~~~ p0.extractLsb' 6 1) (~~~ p0.extractLsb' 5 1) (p2.extractLsb' 4 1 == 1) modrm tail hlen
  have hnot : ¬ (modrm.extractLsb' 6 2 = 3 ∧ (p2.extractLsb' 4 1 == 1) = true) :=
    fun hreserved => hreg ⟨hreserved.1, beq_iff_eq.1 hreserved.2⟩
  obtain ⟨mask, hmask⟩ := maskOf_complete hzero
  simp only [decode, hheader, hsrc2, if_neg hnot, hmask]
  rw [← headerInvalid_iff]
  by_cases hinvalid : headerInvalid p0 p1 p2 = true <;> simp [hinvalid]

/-- The decoder answers `#UD` exactly for an encoding of the group that is whole, not refused (log 10), and has the fields
of R68 or R70 a to c. -/
theorem decode_eq_invalidOpcode_iff (mode64 : Bool) (e p0 p1 p2 op modrm : Byte) (tail : List Byte) :
    decode mode64 (e :: p0 :: p1 :: p2 :: op :: modrm :: tail) = .invalidOpcode ↔
      headerRefusal mode64 e p0 p1 p2 op = none ∧ encodedLength modrm tail ≤ 6 + tail.length ∧
        ¬ RegisterBroadcastFields p2 modrm ∧ ¬ ZeroingWithoutMaskFields p2 ∧ InvalidFields p0 p1 p2 := by
  cases hheader : headerRefusal mode64 e p0 p1 p2 op with
  | some r => simp [decode, hheader]
  | none =>
    by_cases hlen : encodedLength modrm tail ≤ 6 + tail.length
    · by_cases hreg : RegisterBroadcastFields p2 modrm
      · simp [decode_registerBroadcast hheader hlen hreg, hreg]
      · by_cases hzero : ZeroingWithoutMaskFields p2
        · simp [decode_zeroingWithoutMask hheader hlen hreg hzero, hzero]
        · simp [decode_eq_invalidOpcode_iff_of_not_refused hheader hlen hreg hzero, hlen, hreg, hzero]
    · obtain ⟨r, hr⟩ := decode_refused_of_lt_encodedLength (mode64 := mode64) (e := e) (p0 := p0) (p1 := p1) (p2 := p2)
        (op := op) (Nat.lt_of_not_le hlen)
      simp [hr, hlen]

/-- A byte string that raises `#UD` has at least six bytes. -/
theorem decode_invalidOpcode_cons {mode64 : Bool} {bytes : List Byte} (h : decode mode64 bytes = .invalidOpcode) :
    ∃ e p0 p1 p2 op modrm tail, bytes = e :: p0 :: p1 :: p2 :: op :: modrm :: tail := by
  match bytes, h with
  | e :: p0 :: p1 :: p2 :: op :: modrm :: tail, _ => exact ⟨e, p0, p1, p2, op, modrm, tail, rfl⟩

/-- The step raises `#UD` where the decoder answers it. -/
theorem step_eq_fault_invalidOpcode {s : State} (h : decode s.mode64 (fetchBytes s) = .invalidOpcode) :
    step s = .fault .invalidOpcode := by
  rw [step, h, raise]

/-- Settles O15: the header passes, the bytes are all there and no refusal applies, so the decoder reaches the check. -/
theorem invalidEncodingsRaiseUD : Obligations.InvalidEncodingsRaiseUD := by
  intro s e p0 p1 p2 op modrm tail hbytes hgroup hmode htop hreg hzero hinvalid
  refine step_eq_fault_invalidOpcode ?_
  rw [hbytes, decode_eq_invalidOpcode_iff]
  exact ⟨headerRefusal_eq_none hgroup hmode, encodedLength_le_fetched hbytes htop, hreg, hzero, hinvalid⟩

/-! ## The faults of a form and their order -/

/-- The features that admission checks are those of R84, for the vector lengths there are (R70 d and e). -/
theorem featurePresent_iff (i : Instr) (s : State) : featurePresent i.vl s = true ↔ FeaturePresent i.vl s := by
  rcases instr_vl_eq i with h | h <;> simp [featurePresent, FeaturePresent, h]

/-- The faults of admission: `#UD` for a missing feature or a state not enabled (R70 d to f), and only after it `#NM` for
TS (R71, R74). -/
theorem admissionFault_eq_some_iff (i : Instr) (s : State) (f : Fault) :
    admissionFault i.vl s = some f ↔
      (f = .invalidOpcode ∧ ¬ (FeaturePresent i.vl s ∧ StateEnabled s)) ∨
        (f = .deviceNotAvailable ∧ (FeaturePresent i.vl s ∧ StateEnabled s) ∧ s.ts = true) := by
  have hcheck : (!featurePresent i.vl s || !s.stateEnabled) = true ↔
      ¬ (FeaturePresent i.vl s ∧ StateEnabled s) := by
    rw [← featurePresent_iff, StateEnabled, ← Bool.not_and, Bool.not_eq_true', ← Bool.and_eq_true, Bool.not_eq_true]
  rw [admissionFault]
  split_ifs with hud hts
  · simp [hcheck.1 hud, eq_comm (a := f)]
  · simp [not_not.1 (mt hcheck.2 hud), hts, eq_comm (a := f)]
  · simp [not_not.1 (mt hcheck.2 hud), hts]

/-- The fault of the data read is the one that the oracle names for it (R72). -/
theorem operandFault_eq_some_iff (vl esz : Nat) (o : ShufOperands) (s : State) (f : Fault) :
    operandFault vl esz o s = some f ↔
      ∃ ea n e, dataAccess vl esz o s = some (ea, n) ∧ memFaultFor s.memFault ea.toNat n = some e ∧ f = .memory e := by
  unfold operandFault
  cases haccess : dataAccess vl esz o s with
  | none => simp
  | some access => obtain ⟨ea, n⟩ := access; simp [eq_comm (a := f)]

/-- The data read is that of a memory operand, at its effective address (R20, R21). -/
theorem dataAccess_some {vl esz : Nat} {o : ShufOperands} {s : State} {ea : Word64} {n : Nat}
    (h : dataAccess vl esz o s = some (ea, n)) :
    ∃ m bcast, o.src2 = .mem m bcast ∧ ea = effectiveAddress (operandBytes vl esz bcast) o.ilen m s ∧
      n = operandBytes vl esz bcast := by
  cases hsrc2 : o.src2 with
  | reg r => rw [dataAccess_of_reg hsrc2] at h; cases h
  | mem m bcast => rw [dataAccess_of_mem hsrc2] at h; cases h; exact ⟨m, bcast, rfl, rfl, rfl⟩

/-- Settles O24: decoding goes before admission, which checks in the order of R74, and admission before the data read. -/
theorem exceptionPriority : Obligations.ExceptionPriority := by
  refine ⟨fun s => step_eq_fault_invalidOpcode, fun i s => ⟨fun hud => ?_, fun hok hts => ?_, ?_⟩⟩
  · exact (exec_fault_iff ..).2 (.inl ((admissionFault_eq_some_iff ..).2 (.inl ⟨rfl, hud⟩)))
  · exact (exec_fault_iff ..).2 (.inl ((admissionFault_eq_some_iff ..).2 (.inr ⟨rfl, hok, hts⟩)))
  · intro hadm ea n e haccess hfault
    have hnone := (admissionFault_eq_none_iff i.vl (instr_vl_eq i) s).2 hadm
    exact (exec_fault_iff ..).2 (.inr ⟨hnone, (operandFault_eq_some_iff ..).2 ⟨ea, n, e, haccess, hfault, rfl⟩⟩)

/-- Settles O6: the decoder answers `#UD`, or the decoded form faults at admission or at the data read. -/
theorem faultsOnlyByTheRules : Obligations.FaultsOnlyByTheRules := by
  intro s f h
  obtain ⟨hf, hdecode⟩ | ⟨i, rest, hdecode, hexec⟩ := step_fault_inv h
  · obtain ⟨e, p0, p1, p2, op, modrm, tail, hbytes⟩ := decode_invalidOpcode_cons hdecode
    rw [hbytes, decode_eq_invalidOpcode_iff] at hdecode
    obtain ⟨hheader, -, -, -, hinvalid⟩ := hdecode
    have hgroup := (groupHeader_of_headerRefusal_none hheader).1
    exact .inl ⟨hf, .inl ⟨e, p0, p1, p2, op, modrm, tail, hbytes, hgroup, hinvalid⟩⟩
  · obtain hadm | ⟨-, hread⟩ := (exec_fault_iff i s f).1 hexec
    · obtain ⟨hf, hud⟩ | ⟨hf, -, hts⟩ := (admissionFault_eq_some_iff i s f).1 hadm
      · exact .inl ⟨hf, .inr ⟨i, rest, hdecode, hud⟩⟩
      · exact .inr (.inl ⟨hf, hts⟩)
    · obtain ⟨ea, n, e, haccess, hfault, hf⟩ := (operandFault_eq_some_iff ..).1 hread
      obtain ⟨m, bcast, hsrc2, rfl, rfl⟩ := dataAccess_some haccess
      exact .inr (.inr ⟨i, rest, m, bcast, e, hdecode, hsrc2, hf, hfault⟩)

/-! ## What an exception records -/

/-- Settles O26: the table of R73, row by row. -/
theorem exceptionNumbers : Obligations.ExceptionNumbers := ⟨rfl, rfl, rfl, rfl, fun _ _ => rfl, rfl⟩

/-- Settles O48: by R68, R71 and R72 for each exception; only a page fault brings a code of its own. -/
theorem exceptionErrorCodes : Obligations.ExceptionErrorCodes := ⟨rfl, rfl, rfl, rfl, rfl, fun _ _ => rfl⟩

end Sys2Proof.Machine
end

section
/-! PROOFS. The family 70_reset_and_hazards.md: the word loaded where the next step fetches (R88, R32), and when a form
completes (R84). -/

namespace Sys2Proof.Machine

/-! ## The load (log 1) -/

/-- In a canonical memory a step fetches the bytes stored at `rip` and no other, where they are as many as it looks at. -/
theorem fetchBytes_storeAtRip {bytes : List Byte} {s : State} (hm : s.mem.wf = true)
    (hlen : bytes.length = fetchCount s) : fetchBytes (storeAtRip bytes s) = bytes := by
  have hroom : bytes.length ≤ 2 ^ Config.aw s.mode64 - s.rip.toNat := hlen.trans_le (Nat.min_le_right ..)
  have hfits : s.rip.toNat + bytes.length ≤ 2 ^ 64 := by
    have := two_pow_aw_le s.mode64
    have := s.rip.isLt
    omega
  refine List.ext_getElem ((fetchBytes_length _).trans hlen.symm) fun m _ hlt => ?_
  simp only [fetchBytes, List.getElem_map, List.getElem_range, storeAtRip_mem, storeAtRip_rip]
  rw [List.take_of_length_le hroom, Memory.read_writeBytes hm hfits, if_pos (by omega), Nat.add_sub_cancel_left,
    List.getD_eq_getElem _ _ hlt]

/-- A table word is padded to the longest instruction. -/
@[simp] theorem wordBytes_length (nbits w : Nat) : (wordBytes nbits w).length = Config.maxILen := by
  simp [wordBytes]

/-- A table word that is an instruction decodes to it in 64-bit mode. -/
theorem decode_of_decodeTableWord {nbits w : Nat} {i : Instr} (h : decodeTableWord nbits w = some i) :
    ∃ rest, decode true (wordBytes nbits w) = .instr i rest := by
  unfold decodeTableWord at h
  split at h
  case h_1 j rest hdecode =>
    obtain rfl := Option.some.inj h
    exact ⟨rest, hdecode⟩
  case h_2 => cases h
  case h_3 => cases h

/-- Settles O21: the step fetches the word that was stored, and runs what it decodes to. -/
theorem fetchWordRunsTheTableWord : Obligations.FetchWordRunsTheTableWord := by
  intro s nbits w i hm hmode htop h
  obtain ⟨rest, hdecode⟩ := decode_of_decodeTableWord h
  have hcount : (wordBytes nbits w).length = fetchCount s := by
    simp only [wordBytes_length, fetchCount, hmode, Config.aw, Config.maxILen, if_true]
    omega
  have hfetch : fetchBytes (s.withFetchWord nbits w) = wordBytes nbits w := fetchBytes_storeAtRip hm hcount
  have hmode' : (s.withFetchWord nbits w).mode64 = true := hmode
  refine stepRunsTheDecodedInstruction _ i rest ?_
  rw [hfetch, hmode', hdecode]

/-! ## When a form completes -/

/-- Settles O22: the state a form completes to is `completedState`, under the premises and only there. -/
theorem completesExactlyUnderThePremises : Obligations.CompletesExactlyUnderThePremises := by
  intro i s
  constructor
  · intro hc
    exact ⟨completedState i s, (exec_next_iff i s _).2 ⟨hc, rfl⟩⟩
  · rintro ⟨t, h⟩
    exact ((exec_next_iff i s t).1 h).1

end Sys2Proof.Machine
end
